-- ==== Sys2Proof/Word.lean ====
section
/-! DEFINITION. The words the block's bus and command format are made of. -/

namespace Sys2Proof

/-- A bus word and a command word: 32 bits (R28, R80). -/
abbrev Word := BitVec 32

/-- One byte lane of a bus word (R61). -/
abbrev Byte := BitVec 8

/-- A byte offset in the block's window: 14 bits, 0x0000 to 0x3FFF (R9, R50). -/
abbrev Offset := BitVec 14

/-- The index of an operand register R0 to R15 (R20, R82). -/
abbrev RegIdx := Fin 16

end Sys2Proof
end

