-- ==== Sys2Proof/Syntax.lean ====
section
/-! DEFINITION. The seven commands of the RSQM command set, version 1 (R3, R85, R86). -/

namespace Sys2Proof

/-- A command, one constructor per row of the opcode map (R85). Its arguments are the fields R86 lets the command
use, in the assembler's order (R93); the must-be-zero fields of a row are no arguments. -/
inductive Instr where
  /-- `NOP` (R110). -/
  | nop
  /-- `MODEXP Rd, Ra, Rx, Rn` (R120). -/
  | modexp (rd rs1 rs2 rs3 : RegIdx)
  /-- `MRW Rn, Ra` (R130). -/
  | mrw (rs1 rs2 : RegIdx)
  /-- `MRT Rn, #k` (R132). -/
  | mrt (rs1 : RegIdx) (imm : BitVec 8)
  /-- `EGCD Rd, Ra, Rb` (R151). -/
  | egcd (rd rs1 rs2 : RegIdx)
  /-- `CRTSQRT Rd, Rc, Rp, Rq` (R160). -/
  | crtsqrt (rd rs1 rs2 rs3 : RegIdx)
  /-- `TAGSEL Rd, Rs` (R161). -/
  | tagsel (rd rs1 : RegIdx)
deriving DecidableEq, Repr

end Sys2Proof
end

