-- ==== Sys2Proof/WellFormed.lean ====
section
/-! DEFINITION. The one condition on a command's fields that the field widths do not already give: a group of
consecutive registers fits in R0 to R15 (R82, R90). -/

namespace Sys2Proof

/-- A group of `m` registers that starts at `r` does not run past R15 (R82, R90). -/
def groupFits (r : RegIdx) (m : Nat) : Bool := r.val + m ≤ 16

/-- R90: EGCD writes a group of 3 from RD, CRTSQRT a group of 4 from RD, TAGSEL reads a group of 4 from RS1. -/
def Instr.wellFormed : Instr → Bool
  | .nop => true
  | .modexp _ _ _ _ => true
  | .mrw _ _ => true
  | .mrt _ _ => true
  | .egcd rd _ _ => groupFits rd 3
  | .crtsqrt rd _ _ _ => groupFits rd 4
  | .tagsel _ rs1 => groupFits rs1 4

end Sys2Proof
end

