-- ==== Sys2Proof/Decode.lean ====
section
/-! DEFINITION. The command decoder (R81 to R91), total on every word, and the encoder from the same table (R86). -/

namespace Sys2Proof

/-! ### Fields of `CMD32` (R81) -/

/-- `w[lo+len−1 : lo] = (w div 2^lo) mod 2^len` (R12). -/
def slice (w : Word) (lo len : Nat) : Nat := w.toNat / 2 ^ lo % 2 ^ len

/-- A 4-bit field at `lo` as a register index, `zext_4` (R82). -/
def regField (w : Word) (lo : Nat) : RegIdx := Fin.ofNat 16 (slice w lo 4)

/-- `OPC = w[7:0]`. -/
def opcField (w : Word) : Nat := slice w 0 8
/-- `RD = w[11:8]`. -/
def rdField (w : Word) : RegIdx := regField w 8
/-- `RS1 = w[15:12]`. -/
def rs1Field (w : Word) : RegIdx := regField w 12
/-- `RS2 = w[19:16]`. -/
def rs2Field (w : Word) : RegIdx := regField w 16
/-- `RS3 = w[23:20]`. -/
def rs3Field (w : Word) : RegIdx := regField w 20
/-- `IMM8 = w[31:24]`. -/
def immField (w : Word) : BitVec 8 := BitVec.ofNat 8 (slice w 24 8)

/-! ### The opcode map (R85, R86) -/

/-- The assigned opcodes (R85). -/
inductive Opcode where
  | nop | modexp | mrw | mrt | egcd | crtsqrt | tagsel
deriving DecidableEq, Repr

/-- The column OPC of R85. -/
def Opcode.number : Opcode → Nat
  | .nop => 0x00
  | .modexp => 0x01
  | .mrw => 0x02
  | .mrt => 0x03
  | .egcd => 0x04
  | .crtsqrt => 0x05
  | .tagsel => 0x06

/-- The column mask of R86: the opcode field and every must-be-zero field. -/
def Opcode.mask : Opcode → Word
  | .nop => 0xFFFFFFFF
  | .modexp => 0xFF0000FF
  | .mrw => 0xFFF00FFF
  | .mrt => 0x00FF0FFF
  | .egcd => 0xFFF000FF
  | .crtsqrt => 0xFF0000FF
  | .tagsel => 0xFFFF00FF

/-- The column match of R86. -/
def Opcode.pattern : Opcode → Word
  | .nop => 0x00000000
  | .modexp => 0x00000001
  | .mrw => 0x00000002
  | .mrt => 0x00000003
  | .egcd => 0x00000004
  | .crtsqrt => 0x00000005
  | .tagsel => 0x00000006

/-- R85 read backwards: the assigned opcode with a number, none for 0x07 to 0xFF (R88). -/
def Opcode.ofNumber (opc : Nat) : Option Opcode :=
  match opc with
  | 0 => some .nop
  | 1 => some .modexp
  | 2 => some .mrw
  | 3 => some .mrt
  | 4 => some .egcd
  | 5 => some .crtsqrt
  | 6 => some .tagsel
  | _ => none

/-- The command of a row with the fields of a word, as the columns of R86 name them. -/
def Opcode.assemble (op : Opcode) (w : Word) : Instr :=
  match op with
  | .nop => .nop
  | .modexp => .modexp (rdField w) (rs1Field w) (rs2Field w) (rs3Field w)
  | .mrw => .mrw (rs1Field w) (rs2Field w)
  | .mrt => .mrt (rs1Field w) (immField w)
  | .egcd => .egcd (rdField w) (rs1Field w) (rs2Field w)
  | .crtsqrt => .crtsqrt (rdField w) (rs1Field w) (rs2Field w) (rs3Field w)
  | .tagsel => .tagsel (rdField w) (rs1Field w)

/-! ### Decoding (R87) -/

/-- What a word is: exactly one of a command, ILLEGAL_OPCODE and ILLEGAL_FIELD (R91). -/
inductive Decoded where
  /-- One of the seven commands, its fields legal. -/
  | command (i : Instr)
  /-- A reserved opcode (R88). -/
  | illegalOpcode
  /-- An assigned opcode with a nonzero must-be-zero field (R89) or a group past R15 (R90). -/
  | illegalField
deriving DecidableEq, Repr

/-- R87, its checks in its order: the opcode, the must-be-zero fields, the group ranges. -/
def decode (w : Word) : Decoded :=
  match Opcode.ofNumber (opcField w) with
  | none => .illegalOpcode
  | some op =>
    if w &&& op.mask ≠ op.pattern then .illegalField
    else if (op.assemble w).wellFormed then .command (op.assemble w)
    else .illegalField

/-! ### Encoding (R81, R86) -/

/-- The six fields in their places in a word (R81). -/
def pack (op : Opcode) (rd rs1 rs2 rs3 : RegIdx) (imm : BitVec 8) : Word :=
  BitVec.ofNat 32
    (imm.toNat * 2 ^ 24 + rs3.val * 2 ^ 20 + rs2.val * 2 ^ 16 + rs1.val * 2 ^ 12 + rd.val * 2 ^ 8 + op.number)

/-- The opcode of a command (R85). -/
def Instr.opcode : Instr → Opcode
  | .nop => .nop
  | .modexp _ _ _ _ => .modexp
  | .mrw _ _ => .mrw
  | .mrt _ _ => .mrt
  | .egcd _ _ _ => .egcd
  | .crtsqrt _ _ _ _ => .crtsqrt
  | .tagsel _ _ => .tagsel

/-- The word of a command: its fields in the places of R86, every must-be-zero field 0. -/
def encode : Instr → Word
  | .nop => pack .nop 0 0 0 0 0
  | .modexp rd rs1 rs2 rs3 => pack .modexp rd rs1 rs2 rs3 0
  | .mrw rs1 rs2 => pack .mrw 0 rs1 rs2 0 0
  | .mrt rs1 imm => pack .mrt 0 rs1 0 0 imm
  | .egcd rd rs1 rs2 => pack .egcd rd rs1 rs2 0 0
  | .crtsqrt rd rs1 rs2 rs3 => pack .crtsqrt rd rs1 rs2 rs3 0
  | .tagsel rd rs1 => pack .tagsel rd rs1 0 0 0

/-- The word whose low `nbits` bits are those of `w` and whose other bits are 0. A command is one 32-bit word with
bit 0 its least significant (R12, R80), so a table word is the command word itself. -/
def tableWord (nbits w : Nat) : Word := BitVec.ofNat 32 (w % 2 ^ nbits)

/-- The command the decoder reads from a word of the opcode table. -/
def decodeTableWord (nbits w : Nat) : Option Instr :=
  match decode (tableWord nbits w) with
  | .command i => some i
  | .illegalOpcode => none
  | .illegalField => none

end Sys2Proof
end

