-- ==== Sys2Proof/Config.lean ====
section
/-! DEFINITION. What a built block fixes: the operand width and the place of its window (R8, R65). -/

namespace Sys2Proof

/-- The open parameters of a built block. The bounds of R8 are carried with the number of limbs, so an illegal
width cannot be written down. The width is an ARGUMENT of the model: every statement over states holds for every
legal one. -/
structure Config where
  /-- `NWORDS`, the number of 32-bit limbs of an operand register (R8). -/
  nwords : Nat
  /-- `BASE`, the system address of the block's window (R52, R65). -/
  base : Nat
  /-- `2 ≤ NWORDS` (R8). -/
  nwords_ge : 2 ≤ nwords
  /-- `NWORDS ≤ 128` (R8). -/
  nwords_le : nwords ≤ 128
deriving DecidableEq, Repr

/-- `NBITS = 32 · NWORDS`, the width of an operand register (R8). -/
abbrev Config.nbits (c : Config) : Nat := 32 * c.nwords

/-- The width of the spec's own vectors, NBITS = 128 (R8: "Every vector in 95_test_vectors.md uses `NBITS = 128`"),
with the window at system address 0. DESIGN CHOICE (log 1). -/
def Config.vectors : Config :=
  { nwords := 4, base := 0, nwords_ge := by decide, nwords_le := by decide }

end Sys2Proof
end

