-- ==== Sys2Proof/Machine/State.lean ====
section
/-! DEFINITION. The state of the block (10_state.md), what its ports carry (R50), and the reasons a step can stop. -/

namespace Sys2Proof.Machine

/-! ### Error codes (R181) -/

/-- The error codes the block writes to `STATUS.ERRCODE`. The codes 0x0C to 0xFF are reserved and never written
(R181), so they have no constructor (log 14). -/
inductive ErrCode where
  | ok
  | illegalOpcode
  | illegalField
  | modZero
  | mrSmallN
  | keyNot3Mod4
  | keyEqual
  | keyRange
  | keyNotCoprime
  | tagConfig
  | tagMismatch
  | coefRange
deriving DecidableEq, Repr

/-! ### The ports (R50) -/

/-- The size of a bus request, in bytes 1, 2 or 4 (R50). -/
inductive AccessSize where
  | byte
  | half
  | word
deriving DecidableEq, Repr

/-- A host bus request: its kind, byte offset, size, and for a write a data word (R50). -/
inductive BusReq where
  | read (off : Offset) (size : AccessSize)
  | write (off : Offset) (size : AccessSize) (wdata : Word)
deriving DecidableEq, Repr

/-- The two bus responses (R50). -/
inductive BusResp where
  | okay
  | slverr
deriving DecidableEq, Repr

/-- An RNG request `(lo, hi)` (R72). -/
structure RngReq where
  lo : Nat
  hi : Nat
deriving DecidableEq, Repr

/-- What the block puts out on its ports: the response to a bus request, and an RNG request (R50). -/
inductive Output where
  | readResp (resp : BusResp) (rdata : Word)
  | writeResp (resp : BusResp)
  | rngRequest (req : RngReq)
deriving DecidableEq, Repr

/-- One event of the interleaving of R67, and the reset pin (R200). -/
inductive Event where
  /-- A host bus access (R54, R55); acceptance is part of the `CMD` write that causes it (R100). -/
  | bus (req : BusReq)
  /-- An RNG answer (R72). -/
  | rng (v : Nat)
  /-- A turn of the engine (R102, R104). -/
  | engine
  /-- The `rst` pin is driven to a level: `true` asserted, `false` released (R200). -/
  | rst (asserted : Bool)
deriving DecidableEq, Repr

/-! ### State -/

/-- The operand register file R0 to R15, each value a number below `2^NBITS` (R20, R22; log 6). -/
abbrev Regs := Vector Nat 16

/-- What the engine holds while BUSY (R25, R47). -/
structure Busy where
  /-- The accepted command word (R25). -/
  word : Word
  /-- Snapshot `S[0..15]` (R47, R100). -/
  snap : Regs
  /-- Snapshot `SW` of `TAGW.W` (R47, R100). -/
  sw : BitVec 8
  /-- Snapshot `SH` of `{TAGH_HI, TAGH_LO}` (R47, R100). -/
  sh : BitVec 64
  /-- The in-range RNG answers consumed so far, in order (R47, R102). -/
  draws : List Nat
  /-- The outstanding RNG request (R47, R72). -/
  rngReq : Option RngReq
deriving DecidableEq, Repr

/-- The engine phase (R25). -/
inductive Phase where
  | idle
  | busy (b : Busy)
deriving DecidableEq, Repr

/-- The state of the block (10_state.md), with its parameters and its environment as plain data. -/
structure State where
  /-- The parameters NWORDS and BASE of the built block (R8, R65). No step changes them. -/
  cfg : Config
  /-- The level of the `rst` pin (R50, R200). -/
  rst : Bool
  /-- R0 to R15 (R20). -/
  regs : Regs
  /-- `CTRL.IE` (R34). -/
  ie : Bool
  /-- `CTRL.LOCK` (R35). -/
  lock : Bool
  /-- `STATUS.DONE` (R38). -/
  done : Bool
  /-- `STATUS.RFLAG` (R39). -/
  rflag : Bool
  /-- `STATUS.BUSYERR` (R40). -/
  busyerr : Bool
  /-- `STATUS.LOCKERR` (R41). -/
  lockerr : Bool
  /-- `STATUS.ERRCODE` (R42). -/
  errcode : ErrCode
  /-- `CMD`, the last accepted word (R43). -/
  cmd : Word
  /-- `TAGW.W` (R44). -/
  tagw : BitVec 8
  /-- `TAGH_LO` (R45). -/
  taghLo : Word
  /-- `TAGH_HI` (R45). -/
  taghHi : Word
  /-- The engine phase and what BUSY holds (R25, R47). -/
  phase : Phase
  /-- The events still to come, in the order of the interleaving (R67; log 2). The environment's, not the block's. -/
  inputs : List Event
  /-- What the ports have carried so far, oldest first (R50, R213; log 3). The environment's record. -/
  outputs : List Output
deriving DecidableEq, Repr

/-- The end of a command body (R103): `return` with its flag and writes, `raise Error(code)`, or a `RandInRange`
that has no answer yet (R72). -/
inductive Execution where
  | ret (rflag : Bool) (writes : List (RegIdx × Nat))
  | raise (e : ErrCode)
  | draw (req : RngReq)
deriving DecidableEq, Repr

/-! ### Stops -/

/-- The block has no trap: a failed command completes (R180). -/
inductive Fault where
  /-- Raised by `exec` when the engine is IDLE: completion is enabled only when `BUSY = 1` (R104), and IDLE holds
  no command (R25). `step` never raises it. Safe (log 8). -/
  | noCommand
deriving DecidableEq, Repr

/-- What the model gives no next state to. -/
inductive Refusal where
  /-- An instruction that has no meaning yet, by the table's mnemonic. Raised by no arm. Safe. -/
  | notModelled (mnemonic : String)
  /-- Raised by `step` on a bus access while `rst` is asserted: "Bus requests during reset get no defined response,
  and the platform must not issue them" (R200, 91 N16). Safe (log 9). -/
  | busDuringReset
deriving DecidableEq, Repr

/-! ### Reset (R49) -/

/-- Every register at the reset value of R49, for a built block with parameters `c`; the pin released, no event to
come, nothing on the ports yet (logs 2, 3, 10). -/
def State.resetOf (c : Config) : State :=
  { cfg := c
    rst := false
    regs := Vector.replicate 16 0
    ie := false
    lock := false
    done := false
    rflag := false
    busyerr := false
    lockerr := false
    errcode := .ok
    cmd := 0
    tagw := 0
    taghLo := 0
    taghHi := 0
    phase := .idle
    inputs := []
    outputs := [] }

/-- The block right after reset, at the width of the spec's vectors (log 1). -/
def State.reset : State := State.resetOf Config.vectors

end Sys2Proof.Machine
end

