-- ==== Sys2Proof/Machine/Flags.lean ====
section
/-! DEFINITION. The status and identification words as the host reads them, and the interrupt line (R31 to R45, R186). -/

namespace Sys2Proof.Machine

/-- The code of R181. -/
def ErrCode.code : ErrCode → BitVec 8
  | .ok => 0x00
  | .illegalOpcode => 0x01
  | .illegalField => 0x02
  | .modZero => 0x03
  | .mrSmallN => 0x04
  | .keyNot3Mod4 => 0x05
  | .keyEqual => 0x06
  | .keyRange => 0x07
  | .keyNotCoprime => 0x08
  | .tagConfig => 0x09
  | .tagMismatch => 0x0A
  | .coefRange => 0x0B

/-- `STATUS.BUSY` is 1 exactly when the phase is BUSY (R25, R37). -/
def State.busy (s : State) : Bool :=
  match s.phase with
  | .idle => false
  | .busy _ => true

/-- `STATUS` (R36): BUSY, DONE, RFLAG, BUSYERR, LOCKERR in [4:0], ERRCODE in [15:8], the rest res0. -/
def State.statusWord (s : State) : Word :=
  BitVec.ofNat 32
    (s.busy.toNat + s.done.toNat * 2 ^ 1 + s.rflag.toNat * 2 ^ 2 + s.busyerr.toNat * 2 ^ 3 + s.lockerr.toNat * 2 ^ 4
      + s.errcode.code.toNat * 2 ^ 8)

/-- `CTRL` (R33): IE in bit 0, LOCK in bit 1, the rest res0. -/
def State.ctrlWord (s : State) : Word := BitVec.ofNat 32 (s.ie.toNat + s.lock.toNat * 2 ^ 1)

/-- `ID` (R31). -/
def idWord : Word := 0x52414231

/-- `PARAM` (R32): NWORDS in [15:0], NREGS = 16 in [23:16], VERSION = 0x01 in [31:24]. -/
def paramWord (c : Config) : Word := BitVec.ofNat 32 (c.nwords + 16 * 2 ^ 16 + 0x01 * 2 ^ 24)

/-- `TAGW` (R44): W in [7:0], the rest res0. -/
def State.tagwWord (s : State) : Word := BitVec.ofNat 32 s.tagw.toNat

/-- `h = {TAGH_HI, TAGH_LO}`, TAGH_HI in the high part (R12, R45). -/
def State.tagh (s : State) : BitVec 64 := BitVec.ofNat 64 (s.taghHi.toNat * 2 ^ 32 + s.taghLo.toNat)

/-- `irq = STATUS.DONE ∧ CTRL.IE` (R48, R186). -/
def State.irq (s : State) : Bool := s.done && s.ie

end Sys2Proof.Machine
end

