-- ==== Sys2Proof/Machine/Operands.lean ====
section
/-! DEFINITION. How a value is read out of and written into an operand register: limbs, groups of registers, and the
two's-complement form of a coefficient (R12, R13, R57, R58, R62, R82). -/

namespace Sys2Proof.Machine

/-! ### Limbs (R12, R57, R58, R62) -/

/-- Limb `w` of the value `v`: its bits `[32w+31 : 32w]` (R12, R62). -/
def limb (v w : Nat) : Word := BitVec.ofNat 32 (v / 2 ^ (32 * w))

/-- `v` with bits `[32w+31 : 32w]` replaced by `x` (R58): the limbs below, the new limb, the limbs above. -/
def setLimb (v w : Nat) (x : Word) : Nat :=
  v % 2 ^ (32 * w) + x.toNat * 2 ^ (32 * w) + v / 2 ^ (32 * (w + 1)) * 2 ^ (32 * (w + 1))

/-! ### Sources and groups (R82, R101, R106) -/

/-- Member `k` of the group of consecutive registers that starts at `r` (R82). A group never runs past R15 (R90). -/
def member (r : RegIdx) (k : Nat) : RegIdx := Fin.ofNat 16 (r.val + k)

/-- `S[i]`: a command reads its operands only from the snapshot (R101), unsigned (R22). -/
def Busy.src (b : Busy) (i : RegIdx) : Nat := b.snap[i]

/-! ### Signed coefficients (R13) -/

/-- `s2u(v) = v mod 2^NBITS` (R13). -/
def s2u (nbits : Nat) (v : Int) : Nat := (v % 2 ^ nbits).toNat

/-- `u2s(x) = sext_NBITS(x)` (R12, R13): how the host reads a coefficient back. -/
def u2s (nbits : Nat) (x : Nat) : Int := if 2 ^ (nbits - 1) ≤ x then (x : Int) - 2 ^ nbits else x

/-- `−2^(NBITS−1) ≤ v < 2^(NBITS−1)`: the values `s2u` keeps (R13, R151). -/
def coefFits (nbits : Nat) (v : Int) : Bool := -(2 ^ (nbits - 1)) ≤ v && v < 2 ^ (nbits - 1)

end Sys2Proof.Machine
end

