-- ==== Sys2Proof/Machine/Ops.lean ====
section
/-! DEFINITION. The named operations over the state: registers, the bus window, acceptance, completion (with or without
an error), the RNG port and reset. -/

namespace Sys2Proof.Machine

/-! ### Operand registers (R20, R22, R102) -/

/-- `R[i]` (R14). -/
def State.reg (s : State) (i : RegIdx) : Nat := s.regs[i]

/-- `R[i] <- v`: the register keeps the NBITS low bits of the value (R20, R102). -/
def writeReg (nbits : Nat) (r : Regs) (i : RegIdx) (v : Nat) : Regs := r.set i (v % 2 ^ nbits)

/-- All destinations of one command (R104). -/
def commit (nbits : Nat) (writes : List (RegIdx × Nat)) (r : Regs) : Regs :=
  writes.foldl (fun r w => writeReg nbits r w.1 w.2) r

/-! ### The operand window (R57, R58) -/

/-- `off` lies in the operand register window 0x1000 to 0x2FFF (R56). -/
def inWindow (off : Offset) : Bool := 0x1000 ≤ off.toNat && off.toNat ≤ 0x2FFF

/-- `r = (off − 0x1000) >> 9` (R57). -/
def winReg (off : Offset) : RegIdx := Fin.ofNat 16 ((off.toNat - 0x1000) / 2 ^ 9)

/-- `w = ((off − 0x1000) >> 2) mod 128` (R57). -/
def winLimb (off : Offset) : Nat := (off.toNat - 0x1000) / 2 ^ 2 % 128

/-- `limb_read(off)` (R57): limbs at or past NWORDS do not exist and read 0. -/
def State.limbRead (s : State) (off : Offset) : Word :=
  if winLimb off < s.cfg.nwords then limb (s.reg (winReg off)) (winLimb off) else 0

/-- `limb_write(off, v)` (R58). -/
def State.limbWrite (s : State) (off : Offset) (v : Word) : State :=
  if s.busy then { s with busyerr := true }
  else if winLimb off < s.cfg.nwords then
    { s with regs := writeReg s.cfg.nbits s.regs (winReg off) (setLimb (s.reg (winReg off)) (winLimb off) v) }
  else s

/-! ### Reads (R54) -/

/-- The word at a word-aligned offset, as R54 picks it: a control register, a limb, or 0 at a reserved offset
(R28, R56, R59). -/
def State.windowWord (s : State) (off : Offset) : Word :=
  if inWindow off then s.limbRead off
  else
    match off.toNat with
    | 0x000 => idWord
    | 0x004 => paramWord s.cfg
    | 0x008 => s.ctrlWord
    | 0x00C => s.statusWord
    | 0x010 => s.cmd
    | 0x014 => s.tagwWord
    | 0x018 => s.taghLo
    | 0x01C => s.taghHi
    | _ => 0

/-- R60: only a 4-byte access at a multiple of 4 is accepted. -/
def accessOk (off : Offset) (size : AccessSize) : Bool := decide (size = .word) && off.toNat % 4 == 0

/-- `MemRead(off, size)` (R54): the response and the word; no state changes. -/
def State.memRead (s : State) (off : Offset) (size : AccessSize) : BusResp × Word :=
  if accessOk off size then (.okay, s.windowWord off) else (.slverr, 0)

/-! ### Acceptance (R100) -/

/-- The copy taken at acceptance: S, SW and SH, and nothing drawn or requested yet (R47, R100). -/
def State.snapshot (s : State) (w : Word) : Busy :=
  { word := w, snap := s.regs, sw := s.tagw, sh := s.tagh, draws := [], rngReq := none }

/-- `accept(w)` (R100). -/
def State.accept (s : State) (w : Word) : State :=
  { s with cmd := w, phase := .busy (s.snapshot w), done := false, rflag := false, errcode := .ok }

/-! ### Writes (R55) -/

/-- A write to `CTRL` (R33 to R35): IE takes bit 0, LOCK is set by bit 1 and never cleared. -/
def State.writeCtrl (s : State) (v : Word) : State := { s with ie := v.getLsbD 0, lock := s.lock || v.getLsbD 1 }

/-- A write to `STATUS` (R36): each W1C bit that is 1 in the word is cleared. -/
def State.writeStatus (s : State) (v : Word) : State :=
  { s with
    done := s.done && !v.getLsbD 1
    busyerr := s.busyerr && !v.getLsbD 3
    lockerr := s.lockerr && !v.getLsbD 4 }

/-- A write to `CMD` (R43): accepted while idle, dropped while busy. -/
def State.writeCmd (s : State) (v : Word) : State := if s.busy then { s with busyerr := true } else s.accept v

/-- A write to a tag register (R55): `upd` is what it stores while idle and unlocked; otherwise it is dropped and
sets BUSYERR while busy, LOCKERR while locked, or both (R40, R41). -/
def State.writeTag (s : State) (stored : State) : State :=
  if s.busy || s.lock then { s with busyerr := s.busyerr || s.busy, lockerr := s.lockerr || s.lock } else stored

/-- The body of `MemWrite` for an accepted access (R55). -/
def State.storeWord (s : State) (off : Offset) (v : Word) : State :=
  if inWindow off then s.limbWrite off v
  else
    match off.toNat with
    | 0x008 => s.writeCtrl v
    | 0x00C => s.writeStatus v
    | 0x010 => s.writeCmd v
    | 0x014 => s.writeTag { s with tagw := v.extractLsb' 0 8 }
    | 0x018 => s.writeTag { s with taghLo := v }
    | 0x01C => s.writeTag { s with taghHi := v }
    | _ => s

/-- `MemWrite(off, size, v)` (R55): the response and the new state. -/
def State.memWrite (s : State) (off : Offset) (size : AccessSize) (v : Word) : BusResp × State :=
  if accessOk off size then (.okay, s.storeWord off v) else (.slverr, s)

/-- Put something out on a port. -/
def State.emit (s : State) (o : Output) : State := { s with outputs := s.outputs ++ [o] }

/-- One host bus access with its response (R50, R51). -/
def State.busAccess (s : State) (req : BusReq) : State :=
  match req with
  | .read off size => s.emit (.readResp (s.memRead off size).1 (s.memRead off size).2)
  | .write off size v => (s.memWrite off size v).2.emit (.writeResp (s.memWrite off size v).1)

/-! ### The window in the system's address space (R52, R61, R65) -/

/-- The offset of a system byte address inside the window at BASE, if it lies there (R52, R65). -/
def windowOffset (c : Config) (a : Nat) : Option Offset :=
  if c.base ≤ a ∧ a < c.base + 0x4000 then some (BitVec.ofNat 14 (a - c.base)) else none

/-- Byte lane `k` of a bus word carries bits `[8k+7 : 8k]` (R61). -/
def lane (w : Word) (k : Nat) : Byte := w.extractLsb' (8 * k) 8

/-- The byte a bridge lays at a system address: the lane of the aligned word that holds it (R61); none outside the
window. -/
def State.windowByte (s : State) (a : Nat) : Option Byte :=
  match windowOffset s.cfg a with
  | none => none
  | some off => some (lane (s.windowWord (off - BitVec.ofNat 14 (off.toNat % 4))) (off.toNat % 4))

/-! ### Completion (R104) and errors (R180) -/

/-- `complete(err, rflag, writes)` (R104): all destinations at once on success; on an error no register and RFLAG 0
(R105, R180). This is what the block has in place of taking an exception (R187), and nothing returns from it (R188). -/
def State.complete (s : State) (err : ErrCode) (rflag : Bool) (writes : List (RegIdx × Nat)) : State :=
  { s with
    regs := if err = .ok then commit s.cfg.nbits writes s.regs else s.regs
    rflag := if err = .ok then rflag else false
    errcode := err
    phase := .idle
    done := true }

/-! ### RNG port (R72, R73) -/

/-- Place an RNG request (R72). At most one is outstanding: with one already placed the engine waits. -/
def State.request (s : State) (r : RngReq) : State :=
  match s.phase with
  | .idle => s
  | .busy b =>
    match b.rngReq with
    | some _ => s
    | none => { s with phase := .busy { b with rngReq := some r } }.emit (.rngRequest r)

/-- An RNG answer (R72, R73): in range it is consumed; out of range it is discarded and the same request repeated;
with no request outstanding it is discarded (R201). The port is NBITS wide (R50). DESIGN CHOICE (log 17): an answer
carries no tag, so one that comes while a request is outstanding counts as that request's answer, even if the RNG gave
it to a request that a reset has withdrawn. -/
def State.rngAnswer (s : State) (v : Nat) : State :=
  match s.phase with
  | .idle => s
  | .busy b =>
    match b.rngReq with
    | none => s
    | some r =>
      if r.lo ≤ v % 2 ^ s.cfg.nbits ∧ v % 2 ^ s.cfg.nbits ≤ r.hi then
        { s with phase := .busy { b with draws := b.draws ++ [v % 2 ^ s.cfg.nbits], rngReq := none } }
      else s.emit (.rngRequest r)

/-! ### The end of a command body (R102 to R104) -/

/-- What the engine does with the end of a command body: completes, or asks the RNG for the next base. -/
def State.finish (s : State) (x : Execution) : State :=
  match x with
  | .ret f ws => s.complete .ok f ws
  | .raise e => s.complete e false []
  | .draw r => s.request r

/-- Run a command body on what BUSY holds. Enabled only when `BUSY = 1` (R104). -/
def State.execute (s : State) (body : Config → Busy → Execution) : Host.Outcome State Fault Refusal :=
  match s.phase with
  | .idle => .fault .noCommand
  | .busy b => .next (s.finish (body s.cfg b))

/-! ### Reset (R200, R201) -/

/-- The `rst` pin is driven to a level (R200): while it is asserted, and once more when it is released, every piece of
the block's state takes its reset value (R49); a released pin that stays released changes nothing. The parameters and
the environment's lists are not the block's state (log 10). -/
def State.driveRst (s : State) (level : Bool) : State :=
  if level || s.rst then
    { State.resetOf s.cfg with rst := level, inputs := s.inputs, outputs := s.outputs }
  else s

end Sys2Proof.Machine
end

