-- ==== Sys2Proof/Machine/Control.lean ====
section
/-! DEFINITION. NOP (R110). -/

namespace Sys2Proof.Machine

/-- NOP (R110): returns at once, `rflag = 0`, no writes; it still completes. -/
def execNop (s : State) : Host.Outcome State Fault Refusal := s.execute fun _ _ => .ret false []

end Sys2Proof.Machine
end

