-- ==== Sys2Proof/Machine/Arith.lean ====
section
/-! DEFINITION. The functions the commands share: `powerMod` (R121), `witness` (R131) and `egcd` (R150), on exact
integers (R10). Each loop of the spec is a recursion on a bound of its iteration count (log 12). -/

namespace Sys2Proof.Machine

/-- `bitlen(0) = 0`, otherwise `⌊log2 d⌋ + 1` (R121). -/
def bitlen (d : Nat) : Nat := if d = 0 then 0 else d.log2 + 1

/-! ### `powerMod` (R121) -/

/-- The loop of R121 from `(acc, pw, d)`; the first argument bounds its iterations. -/
def powerModLoop (n : Nat) : Nat → Nat → Nat → Nat → Nat
  | 0, acc, _, _ => acc
  | fuel + 1, acc, pw, d =>
    if d = 0 then acc
    else powerModLoop n fuel (if d % 2 = 1 then acc * pw % n else acc) (pw * pw % n) (d / 2)

/-- `powerMod(a, d, n)` (R121): `bitlen(d)` iterations from `(1 mod n, a, d)`. -/
def powerMod (a d n : Nat) : Nat := powerModLoop n (bitlen d) (1 % n) a d

/-! ### `witness` (R131) -/

/-- `while u mod 2 == 0: u <- u div 2; t <- t + 1` (R131); the first argument bounds the iterations. -/
def splitTwos : Nat → Nat → Nat → Nat × Nat
  | 0, u, t => (u, t)
  | fuel + 1, u, t => if u % 2 = 0 then splitTwos fuel (u / 2) (t + 1) else (u, t)

/-- The squarings of R131, `t` of them from `x`, and the last test: `true` is "no evidence of compositeness". -/
def squarings (n : Nat) : Nat → Nat → Bool
  | 0, x => x == 1
  | t + 1, x =>
    if x * x % n = 1 ∧ x ≠ 1 ∧ x ≠ n - 1 then false else squarings n t (x * x % n)

/-- `witness(n, a)` (R131), for `n ≥ 2`: `true` for "no evidence of compositeness", `false` for "composite". -/
def witness (n a : Nat) : Bool :=
  let ut := splitTwos (bitlen (n - 1)) (n - 1) 0
  squarings n ut.2 (powerMod a ut.1 n)

/-! ### `egcd` (R150) -/

/-- The result of `egcd` (R150). -/
structure Bezout where
  g : Nat
  s : Int
  t : Int
deriving DecidableEq, Repr

/-- The loop of R150 from the triples `(r0, s0, t0)` and `(r1, s1, t1)`; the first argument bounds its iterations. -/
def egcdLoop : Nat → Bezout → Bezout → Bezout
  | 0, row0, _ => row0
  | fuel + 1, row0, row1 =>
    if row1.g = 0 then row0
    else
      egcdLoop fuel row1
        { g := row0.g - row0.g / row1.g * row1.g
          s := row0.s - (row0.g / row1.g : Nat) * row1.s
          t := row0.t - (row0.g / row1.g : Nat) * row1.t }

/-- `egcd(a, b)` (R150): at most `b + 1` iterations (R154) from `(a, 1, 0)` and `(b, 0, 1)`. -/
def egcd (a b : Nat) : Bezout := egcdLoop (b + 1) { g := a, s := 1, t := 0 } { g := b, s := 0, t := 1 }

end Sys2Proof.Machine
end

