-- ==== Sys2Proof/Machine/CrtSqrt.lean ====
section
/-! DEFINITION. CRTSQRT (R160) and TAGSEL (R161). -/

namespace Sys2Proof.Machine

/-! ### CRTSQRT -/

/-- `x` (for `sign = 1`) and `y` (for `sign = −1`) of R160: `(yP·p·mQ + sign·yQ·q·mP) mod n`, exact. -/
def crtCombine (e : Bezout) (p q mP mQ : Nat) (sign : Int) : Nat :=
  ((e.s * p * mQ + sign * (e.t * q * mP)) % ((p * q : Nat) : Int)).toNat

/-- The four candidates `x, n − x, y, n − y` in their fixed order (R160, R165), from the roots of R163. -/
def crtCandidates (e : Bezout) (c p q : Nat) : List Nat :=
  let mP := powerMod c ((p + 1) / 4) p
  let mQ := powerMod c ((q + 1) / 4) q
  let x := crtCombine e p q mP mQ 1
  let y := crtCombine e p q mP mQ (-1)
  [x, p * q - x, y, p * q - y]

/-- Values for the members of the group that starts at `rd`, in order (R82). -/
def groupWrites (rd : RegIdx) (vs : List Nat) : List (RegIdx × Nat) := vs.zipIdx.map fun v => (member rd v.2, v.1)

/-- The body of CRTSQRT (R160): the key checks of R162 in their order, then the candidates. -/
def crtsqrtBody (nbits : Nat) (rd : RegIdx) (c p q : Nat) : Execution :=
  if p % 4 ≠ 3 ∨ q % 4 ≠ 3 then .raise .keyNot3Mod4
  else if p = q then .raise .keyEqual
  else if 2 ^ nbits ≤ p * q then .raise .keyRange
  else if (egcd p q).g ≠ 1 then .raise .keyNotCoprime
  else .ret false (groupWrites rd (crtCandidates (egcd p q) c p q))

/-- CRTSQRT (R160): `rs1` ciphertext c, `rs2` prime p, `rs3` prime q. A group past R15 is ILLEGAL_FIELD (R90). -/
def execCrtsqrt (rd rs1 rs2 rs3 : RegIdx) (s : State) : Host.Outcome State Fault Refusal :=
  s.execute fun c b =>
    if !groupFits rd 4 then .raise .illegalField
    else crtsqrtBody c.nbits rd (b.src rs1) (b.src rs2) (b.src rs3)

/-! ### TAGSEL -/

/-- The tag configuration TAGSEL accepts (R44, R45, R161): `1 ≤ W ≤ 64`, `W < NBITS`, `h < 2^W`. -/
def tagConfigOk (nbits w h : Nat) : Bool := 1 ≤ w && w ≤ 64 && w < nbits && h < 2 ^ w

/-- The scan of R161: the first candidate that carries the tag, shifted right by W; TAG_MISMATCH if none does. -/
def tagScan (rd : RegIdx) (w h : Nat) : List Nat → Execution
  | [] => .raise .tagMismatch
  | c :: cs => if c % 2 ^ w = h then .ret true [(rd, c / 2 ^ w)] else tagScan rd w h cs

/-- The body of TAGSEL (R161): the configuration check comes before the scan. -/
def tagselBody (nbits : Nat) (rd : RegIdx) (w h : Nat) (candidates : List Nat) : Execution :=
  if tagConfigOk nbits w h then tagScan rd w h candidates else .raise .tagConfig

/-- The four candidate registers `R[rs1]` to `R[rs1+3]` of the snapshot (R82, R161). -/
def Busy.candidates (b : Busy) (rs1 : RegIdx) : List Nat :=
  [b.src (member rs1 0), b.src (member rs1 1), b.src (member rs1 2), b.src (member rs1 3)]

/-- TAGSEL (R161): W and h from the snapshot of the tag registers (R100). A group past R15 is ILLEGAL_FIELD (R90). -/
def execTagsel (rd rs1 : RegIdx) (s : State) : Host.Outcome State Fault Refusal :=
  s.execute fun c b =>
    if !groupFits rs1 4 then .raise .illegalField
    else tagselBody c.nbits rd b.sw.toNat b.sh.toNat (b.candidates rs1)

end Sys2Proof.Machine
end

