-- ==== Sys2Proof/Machine/Egcd.lean ====
section
/-! DEFINITION. EGCD (R151). -/

namespace Sys2Proof.Machine

/-- The body of EGCD (R151) on the result of `egcd`: COEF_RANGE for s, then for t (R184), else `g`, `s2u(s)` and
`s2u(t)` to the group at `rd`. -/
def egcdBody (nbits : Nat) (rd : RegIdx) (e : Bezout) : Execution :=
  if !coefFits nbits e.s then .raise .coefRange
  else if !coefFits nbits e.t then .raise .coefRange
  else .ret false [(member rd 0, e.g), (member rd 1, s2u nbits e.s), (member rd 2, s2u nbits e.t)]

/-- EGCD (R151): `rs1` a, `rs2` b. A group past R15 is ILLEGAL_FIELD (R90), as the decoder has it too. -/
def execEgcd (rd rs1 rs2 : RegIdx) (s : State) : Host.Outcome State Fault Refusal :=
  s.execute fun c b =>
    if !groupFits rd 3 then .raise .illegalField else egcdBody c.nbits rd (egcd (b.src rs1) (b.src rs2))

end Sys2Proof.Machine
end

