-- ==== Sys2Proof/Machine/MillerRabin.lean ====
section
/-! DEFINITION. MRW (R130) and MRT (R132). -/

namespace Sys2Proof.Machine

/-- The body of MRW (R130): MR_SMALL_N for n < 2, else the verdict of the given base. -/
def mrwBody (n a : Nat) : Execution := if n < 2 then .raise .mrSmallN else .ret (witness n a) []

/-- MRW (R130): `rs1` candidate n, `rs2` base a. -/
def execMrw (rs1 rs2 : RegIdx) (s : State) : Host.Outcome State Fault Refusal :=
  s.execute fun _ b => mrwBody (b.src rs1) (b.src rs2)

/-- The trials of R132, `k` of them, on the answers drawn so far: the first failing witness decides, and a trial with
no answer yet asks for a base in `[2, n − 2]` (R72, R134). -/
def mrtTrials (n : Nat) : Nat → List Nat → Execution
  | 0, _ => .ret true []
  | _ + 1, [] => .draw { lo := 2, hi := n - 2 }
  | k + 1, a :: draws => if witness n a then mrtTrials n k draws else .ret false []

/-- The body of MRT (R132): the definite cases first, then the trials. -/
def mrtBody (n k : Nat) (draws : List Nat) : Execution :=
  if n < 2 then .ret false []
  else if n = 2 ∨ n = 3 then .ret true []
  else if n % 2 = 0 then .ret false []
  else mrtTrials n k draws

/-- MRT (R132): `rs1` candidate n, `k = zext_8(IMM8)` trials (R83), on the draws consumed so far (R102). -/
def execMrt (rs1 : RegIdx) (imm : BitVec 8) (s : State) : Host.Outcome State Fault Refusal :=
  s.execute fun _ b => mrtBody (b.src rs1) imm.toNat b.draws

end Sys2Proof.Machine
end

