-- ==== Sys2Proof/Machine/Modexp.lean ====
section
/-! DEFINITION. MODEXP (R120). -/

namespace Sys2Proof.Machine

/-- The body of MODEXP (R120): MOD_ZERO for n = 0 (R124), else `powerMod(a, d, n)` to `R[rd]`. -/
def modexpBody (rd : RegIdx) (a d n : Nat) : Execution :=
  if n = 0 then .raise .modZero else .ret false [(rd, powerMod a d n)]

/-- MODEXP (R120): `rs1` base a, `rs2` exponent d, `rs3` modulus n. -/
def execModexp (rd rs1 rs2 rs3 : RegIdx) (s : State) : Host.Outcome State Fault Refusal :=
  s.execute fun _ b => modexpBody rd (b.src rs1) (b.src rs2) (b.src rs3)

end Sys2Proof.Machine
end

