-- ==== Sys2Proof/Machine/Dispatch.lean ====
section
/-! DEFINITION. The dispatch of R103: one arm per command. -/

namespace Sys2Proof.Machine

def exec (i : Instr) (s : State) : Host.Outcome State Fault Refusal :=
  match i with
  | .nop => Sys2Proof.Machine.execNop s
  | .modexp rd rs1 rs2 rs3 => Sys2Proof.Machine.execModexp rd rs1 rs2 rs3 s
  | .mrw rs1 rs2 => Sys2Proof.Machine.execMrw rs1 rs2 s
  | .mrt rs1 imm => Sys2Proof.Machine.execMrt rs1 imm s
  | .egcd rd rs1 rs2 => Sys2Proof.Machine.execEgcd rd rs1 rs2 s
  | .crtsqrt rd rs1 rs2 rs3 => Sys2Proof.Machine.execCrtsqrt rd rs1 rs2 rs3 s
  | .tagsel rd rs1 => Sys2Proof.Machine.execTagsel rd rs1 s

end Sys2Proof.Machine
end

