-- ==== Sys2Proof/Machine/Fetch.lean ====
section
/-! DEFINITION. What each agent's turn does, and how the next event is taken (R19, R67, R87, R103). -/

namespace Sys2Proof.Machine

/-- What the engine's turn finds (R87, R103): nothing while the pin is asserted (R200) or the phase is IDLE (R195); else
the accepted word, decoded. -/
def State.engineWork (s : State) : Option Decoded :=
  if s.rst then none
  else
    match s.phase with
    | .idle => none
    | .busy b => some (decode b.word)

/-- The engine's turn (R87, R102 to R104), `run` being the dispatch of R103: run the accepted command, complete a word
that decodes to none with its error (R88 to R90), or hold the state (R195, R200). -/
def State.engineTurn (s : State) (run : Instr → State → Host.Outcome State Fault Refusal) :
    Host.Outcome State Fault Refusal :=
  match s.engineWork with
  | none => .next s
  | some (.command i) => run i s
  | some .illegalOpcode => .next (s.finish (.raise .illegalOpcode))
  | some .illegalField => .next (s.finish (.raise .illegalField))

/-- The host's turn: a bus access, refused while `rst` is asserted (R200; log 9). -/
def State.hostTurn (s : State) (req : BusReq) : Host.Outcome State Fault Refusal :=
  if s.rst then .refused .busDuringReset else .next (s.busAccess req)

/-- The RNG's turn: an answer, without effect while `rst` is asserted (R200). -/
def State.rngTurn (s : State) (v : Nat) : State := if s.rst then s else s.rngAnswer v

/-- The state with the first of the events to come taken away (R67). -/
def State.pop (s : State) : State := { s with inputs := s.inputs.tail }

/-- The event the next step takes: the first of those to come, and the engine's turn when none is left, so that a
command that can complete does (R67, R108; log 2). -/
def State.nextEvent (s : State) : Event := s.inputs.head?.getD .engine

/-- A state in which the engine has just accepted `w` and has the next turn: the pin released, `accept(w)` (R100), the
engine's turn before every other event (log 7). -/
def State.loadCommand (s : State) (w : Word) : State :=
  { State.accept { s with rst := false } w with inputs := .engine :: s.inputs }

end Sys2Proof.Machine
end

