-- ==== Sys2Proof/Machine/Step.lean ====
section
/-! DEFINITION. One step of the block: the next event of the interleaving of R67. -/

namespace Sys2Proof.Machine

/-- One step: the next event is taken and has its effect (R67). -/
def step (s : State) : Host.Outcome State Fault Refusal :=
  match s.nextEvent with
  | .bus req => s.pop.hostTurn req
  | .rng v => .next (s.pop.rngTurn v)
  | .engine => s.pop.engineTurn exec
  | .rst level => .next (s.pop.driveRst level)

/-- `s` with a command word where the next step runs it. The block fetches nothing (R24, R70): the word it runs is the
one accepted by the last `CMD` write, so this sets what acceptance sets and gives the engine the next turn (log 7). -/
def State.withFetchWord (s : State) (nbits w : Nat) : State := s.loadCommand (tableWord nbits w)

end Sys2Proof.Machine
end

