-- ==== Sys2Proof/Machine/HostProgram.lean ====
section
/-! DEFINITION. A host that runs a program of bus accesses on the block, with the waits and tests that the spec's host
sequences need (R94, R167, R205, R210). -/

namespace Sys2Proof.Machine

/-! ### What a host does -/

/-- `MemWrite(off, 4, v)` (R55). -/
def writeReq (off : Offset) (v : Word) : BusReq := .write off .word v

/-- `MemRead(off, 4)` (R54). -/
def readReq (off : Offset) : BusReq := .read off .word

/-- One action of a host program. -/
inductive HostOp where
  /-- One bus access. -/
  | access (req : BusReq)
  /-- `WAIT`: read `STATUS` until bit 0 (BUSY) reads 0 (R94). -/
  | waitIdle
  /-- Test ERRCODE in the word read last; if it is not 0x00 the next `skip` actions are not taken (R167, R210; log 15). -/
  | stopOnError (skip : Nat)
deriving DecidableEq, Repr

/-- The block with a host that runs a program on it. -/
structure Platform where
  block : State
  /-- The actions still to come. -/
  program : List HostOp
  /-- The word that the host's last read returned. -/
  lastRead : Word
deriving DecidableEq, Repr

/-- Whose step is next: the host's, or any other event of the interleaving (R67), another master's access included
(R193). -/
inductive Turn where
  | host
  | event (e : Event)
deriving DecidableEq, Repr

/-! ### The steps -/

/-- The block with an event put before all others to come. -/
def State.push (s : State) (e : Event) : State := { s with inputs := e :: s.inputs }

/-- The word on the bus after an access: the block's last response if it answers a read, else the word before. -/
def State.wordRead (s : State) (old : Word) : Word :=
  match s.outputs.getLast? with
  | some (.readResp _ w) => w
  | _ => old

/-- What a platform makes of the block's outcome. -/
def onNext (o : Host.Outcome State Fault Refusal) (f : State → Platform) : Host.Outcome Platform Fault Refusal :=
  match o with
  | .next t => .next (f t)
  | .fault r => .fault r
  | .refused r => .refused r

/-- A bus access by the host: one step of the block; `after` gives the actions still to come from the word read. -/
def Platform.access (p : Platform) (req : BusReq) (after : Word → List HostOp) : Host.Outcome Platform Fault Refusal :=
  onNext (step (p.block.push (.bus req))) fun t =>
    { block := t, program := after (t.wordRead p.lastRead), lastRead := t.wordRead p.lastRead }

/-- The ERRCODE field of a `STATUS` word (R36). -/
def errcodeField (status : Word) : BitVec 8 := status.extractLsb' 8 8

/-- The host's turn: the first action of its program; a host whose program has ended does nothing. -/
def Platform.hostTurn (p : Platform) : Host.Outcome Platform Fault Refusal :=
  match p.program with
  | [] => .next p
  | .access req :: rest => p.access req fun _ => rest
  | .waitIdle :: rest => p.access (readReq 0x00C) fun w => if w.getLsbD 0 then .waitIdle :: rest else rest
  | .stopOnError skip :: rest =>
    .next { p with program := if errcodeField p.lastRead = 0 then rest else rest.drop skip }

/-- One turn. -/
def Platform.turn (p : Platform) (t : Turn) : Host.Outcome Platform Fault Refusal :=
  match t with
  | .host => p.hostTurn
  | .event e => onNext (step (p.block.push e)) fun s => { p with block := s }

/-- The turns of a list, in order, up to the first fault or refusal. -/
def Platform.run : List Turn → Platform → Host.Outcome Platform Fault Refusal
  | [], p => .next p
  | t :: ts, p =>
    match p.turn t with
    | .next q => Platform.run ts q
    | .fault r => .fault r
    | .refused r => .refused r

end Sys2Proof.Machine
end

