-- ==== Sys2Proof/Machine/Assembler.lean ====
section
/-! DEFINITION. What a host writes: the assembler text of a command (R93) and the host-level pseudo-instructions, each
as the list of bus accesses it expands to (R94). -/

namespace Sys2Proof.Machine

/-! ### Command syntax (R93) -/

/-- A register name, `R0` to `R15`. -/
def regName (r : RegIdx) : String := "R" ++ toString r.val

/-- A mnemonic with its operands. -/
def asmLine (mnemonic : String) (operands : List String) : String :=
  match operands with
  | [] => mnemonic
  | _ => mnemonic ++ " " ++ String.intercalate ", " operands

/-- The assembler line of a command: its operands in field order, the immediate as `#k` (R93). -/
def asmText : Instr → String
  | .nop => asmLine "NOP" []
  | .modexp rd rs1 rs2 rs3 => asmLine "MODEXP" [regName rd, regName rs1, regName rs2, regName rs3]
  | .mrw rs1 rs2 => asmLine "MRW" [regName rs1, regName rs2]
  | .mrt rs1 imm => asmLine "MRT" [regName rs1, "#" ++ toString imm.toNat]
  | .egcd rd rs1 rs2 => asmLine "EGCD" [regName rd, regName rs1, regName rs2]
  | .crtsqrt rd rs1 rs2 rs3 => asmLine "CRTSQRT" [regName rd, regName rs1, regName rs2, regName rs3]
  | .tagsel rd rs1 => asmLine "TAGSEL" [regName rd, regName rs1]

/-! ### Pseudo-instructions (R94)

Those that are bus accesses alone are lists of requests; `DECRYPT`, which waits, is a host program, and `WAIT` is the
action `HostOp.waitIdle`. Each that issues a command assumes `BUSY = 0` at its start (R94, R205). -/

/-- `MemWrite(off, 4, v)` as an event of the interleaving. -/
def writeWord (off : Offset) (v : Word) : Event := .bus (writeReq off v)

/-- `MemRead(off, 4)` as an event of the interleaving. -/
def readWord (off : Offset) : Event := .bus (readReq off)

/-- Writing an assembler line is `MemWrite(0x010, 4, encoding)` (R93). -/
def issueReq (i : Instr) : BusReq := writeReq 0x010 (encode i)

/-- That access as an event of the interleaving. -/
def issue (i : Instr) : Event := .bus (issueReq i)

/-- The offset `0x1000 + 0x200·r + 4·w` of limb `w` of `R[r]` (R57). -/
def limbOffset (r : RegIdx) (w : Nat) : Offset := BitVec.ofNat 14 (0x1000 + 0x200 * r.val + 4 * w)

/-- `LDR Rr, v`: one write for each limb; it needs `v < 2^NBITS`. -/
def ldrReqs (c : Config) (r : RegIdx) (v : Nat) : List BusReq :=
  (List.range c.nwords).map fun w => writeReq (limbOffset r w) (limb v w)

/-- The accesses of `LDR Rr, v` as events of the interleaving. -/
def ldr (c : Config) (r : RegIdx) (v : Nat) : List Event := (ldrReqs c r v).map .bus

/-- `STR Rr`: one read of each limb. -/
def strReqs (c : Config) (r : RegIdx) : List BusReq := (List.range c.nwords).map fun w => readReq (limbOffset r w)

/-- The value `STR` makes of the limbs read, limb 0 first: `Σ limb_w · 2^(32w)` (R62). -/
def limbsValue : List Word → Nat
  | [] => 0
  | x :: xs => x.toNat + 2 ^ 32 * limbsValue xs

/-- `ACK`: clear DONE. -/
def ackReqs : List BusReq := [writeReq 0x00C 0x00000002]

/-- `SETTAG W, h`: LOCK = 1, IE = 0. -/
def setTagReqs (w : BitVec 8) (h : BitVec 64) : List BusReq :=
  [writeReq 0x014 (w.setWidth 32), writeReq 0x018 (h.extractLsb' 0 32), writeReq 0x01C (h.extractLsb' 32 32),
    writeReq 0x008 0x00000002]

/-- `ISPRIME Rn` is `MRT Rn, #100` (R94, R133). -/
def isPrimeCmd (rn : RegIdx) : Instr := .mrt rn 100

/-- `SQRMOD Rd, Ra, Rn, Rt`: `LDR Rt, 2`, then `MODEXP Rd, Ra, Rt, Rn` (R94, R168). -/
def sqrmodReqs (c : Config) (rd ra rn rt : RegIdx) : List BusReq :=
  ldrReqs c rt 2 ++ [issueReq (.modexp rd ra rt rn)]

/-- `DECRYPT Rd, Rc, Rp, Rq, Rt`: `CRTSQRT Rt, Rc, Rp, Rq`, `WAIT`, `TAGSEL Rd, Rt`, `WAIT`, for Rt ≤ 12 and no other
(R94). The host tests ERRCODE after the first `WAIT`, and an error stops the sequence before TAGSEL (R167): the test
looks at the word with which that `WAIT` ended, so the accesses are those of R94 (log 15). -/
def decrypt (rd rc rp rq rt : RegIdx) : Option (List HostOp) :=
  if groupFits rt 4 then
    some [.access (issueReq (.crtsqrt rt rc rp rq)), .waitIdle, .stopOnError 2, .access (issueReq (.tagsel rd rt)), .waitIdle]
  else none

end Sys2Proof.Machine
end

