-- ==== Sys2Proof/Safety.lean ====
section
/-! DEFINITION. The terms the statements use: how a command ends, what it may write, and the invariant of the block. -/

namespace Sys2Proof.Machine

/-! ### How a command ends (R104, R105) -/

/-- What no completion changes (R104, R180): the parameters and the pin, CTRL, the sticky bits, CMD, the tag
registers, the environment's lists. -/
structure KeepsRest (s t : State) : Prop where
  cfg : t.cfg = s.cfg
  rst : t.rst = s.rst
  ie : t.ie = s.ie
  lock : t.lock = s.lock
  busyerr : t.busyerr = s.busyerr
  lockerr : t.lockerr = s.lockerr
  cmd : t.cmd = s.cmd
  tagw : t.tagw = s.tagw
  taghLo : t.taghLo = s.taghLo
  taghHi : t.taghHi = s.taghHi
  inputs : t.inputs = s.inputs
  outputs : t.outputs = s.outputs

/-- From `s`, a command completed in `t` with success and the flag given; no register outside `dests` changed. -/
structure Succeeded (s t : State) (rflag : Bool) (dests : List RegIdx) : Prop where
  idle : t.phase = .idle
  done : t.done = true
  errcode : t.errcode = .ok
  rflag : t.rflag = rflag
  others : ∀ j, j ∉ dests → t.reg j = s.reg j
  rest : KeepsRest s t

/-- From `s`, a command completed in `t` with the error given; no register changed. -/
structure Failed (s t : State) (e : ErrCode) : Prop where
  idle : t.phase = .idle
  done : t.done = true
  errcode : t.errcode = e
  rflag : t.rflag = false
  regs : ∀ j, t.reg j = s.reg j
  rest : KeepsRest s t

/-- The registers a command writes on success: the second table of R21. -/
def dests : Instr → List RegIdx
  | .nop => []
  | .modexp rd _ _ _ => [rd]
  | .mrw _ _ => []
  | .mrt _ _ => []
  | .egcd rd _ _ => [member rd 0, member rd 1, member rd 2]
  | .crtsqrt rd _ _ _ => [member rd 0, member rd 1, member rd 2, member rd 3]
  | .tagsel rd _ => [rd]

/-! ### The invariant -/

/-- The snapshot holds values of NBITS bits (R22: sources are "in `[0, 2^NBITS)`"). -/
def Busy.InRange (b : Busy) (c : Config) : Prop := ∀ i, b.src i < 2 ^ c.nbits

/-- What BUSY holds besides the snapshot is legal for RNG traffic (R72 to R74, R132, R134): only MRT on an odd n ≥ 5
draws or asks; every draw lies in `[2, n − 2]`; at most k are drawn; every draw but the last has passed its trial; a
request outstanding is `(2, n − 2)`, and then every draw has passed and a trial is left. -/
def Busy.RngLegal (b : Busy) : Prop :=
  (b.draws = [] ∧ b.rngReq = none) ∨
    ∃ rs1 imm, decode b.word = .command (.mrt rs1 imm) ∧ 5 ≤ b.src rs1 ∧ b.src rs1 % 2 = 1 ∧
      (∀ a ∈ b.draws, 2 ≤ a ∧ a ≤ b.src rs1 - 2) ∧ b.draws.length ≤ imm.toNat ∧
      (∀ a ∈ b.draws.dropLast, witness (b.src rs1) a = true) ∧
      ∀ r, b.rngReq = some r → r = { lo := 2, hi := b.src rs1 - 2 } ∧ b.draws.length < imm.toNat ∧
        ∀ a ∈ b.draws, witness (b.src rs1) a = true

/-- What holds of the block between two steps. -/
structure State.Inv (s : State) : Prop where
  /-- An operand register is NBITS bits wide (R20). -/
  regs_lt : ∀ i, s.reg i < 2 ^ s.cfg.nbits
  /-- While `rst` is asserted every piece of state has its reset value (R200). -/
  in_reset : s.rst = true → s = { State.resetOf s.cfg with rst := true, inputs := s.inputs, outputs := s.outputs }
  /-- While busy the accepted word is in CMD (R43) and the snapshot equals the live registers (R101). -/
  snapshot : ∀ b, s.phase = .busy b → b.word = s.cmd ∧ b.snap = s.regs ∧ b.sw = s.tagw ∧ b.sh = s.tagh
  /-- While busy STATUS shows DONE = 0, RFLAG = 0 and ERRCODE = 0x00 (R38, R109). -/
  status : ∀ b, s.phase = .busy b → s.done = false ∧ s.rflag = false ∧ s.errcode = .ok
  /-- RNG traffic is MRT's (R72 to R74). -/
  rng : ∀ b, s.phase = .busy b → b.RngLegal

end Sys2Proof.Machine
end

