-- ==== Sys2Proof/Certificates/Slice0/Obligations.lean ====
section
/-! DEFINITION. The statements about the block, made from the numbered rules of the spec. They state and never prove. -/

open Sys2Proof Sys2Proof.Machine

/-! ### Encoding (R81 to R95) -/

/-- R95: the seven example lines, each with its word: the assembler text of the command, its encoding, its decoding. -/
def Obligations.SpecExampleWordsAssembleAndDecode : Prop :=
  (∀ e ∈ [(Instr.nop, "NOP", (0x00000000 : Word)),
      (.modexp 3 0 1 2, "MODEXP R3, R0, R1, R2", 0x00210301),
      (.mrw 0 1, "MRW R0, R1", 0x00010002),
      (.mrt 0 100, "MRT R0, #100", 0x64000003),
      (.egcd 5 0 1, "EGCD R5, R0, R1", 0x00010504),
      (.crtsqrt 4 0 1 2, "CRTSQRT R4, R0, R1, R2", 0x00210405),
      (.tagsel 8 4, "TAGSEL R8, R4", 0x00004806)],
    asmText e.1 = e.2.1 ∧ encode e.1 = e.2.2 ∧ decode e.2.2 = .command e.1)

/-- Every well-formed command, with every operand at every value, decodes from its own encoding. -/
def Obligations.DecodeOfEncode : Prop := ∀ i : Instr, i.wellFormed = true → decode (encode i) = .command i

/-- The other direction: a word that decodes to a command is that command's encoding, so every word of a command has
one meaning and no bit of it is dropped; and the command is well-formed. -/
def Obligations.EncodeOfDecode : Prop :=
  ∀ (w : Word) (i : Instr), decode w = .command i → encode i = w ∧ i.wellFormed = true

/-- R86, the seven rows of the table written out: a word is a mnemonic exactly when `(word & mask) = match` and its range
constraint holds, and its operands are then the fields the row names. -/
def Obligations.MnemonicSelectedByMaskMatchAndRange : Prop :=
  ∀ w : Word,
    (decode w = .command .nop ↔ w &&& 0xFFFFFFFF = 0x00000000) ∧
    (∀ rd a d n, decode w = .command (.modexp rd a d n) ↔
      w &&& 0xFF0000FF = 0x00000001 ∧ rd.val = w.toNat / 2 ^ 8 % 16 ∧ a.val = w.toNat / 2 ^ 12 % 16 ∧
        d.val = w.toNat / 2 ^ 16 % 16 ∧ n.val = w.toNat / 2 ^ 20 % 16) ∧
    (∀ n a, decode w = .command (.mrw n a) ↔
      w &&& 0xFFF00FFF = 0x00000002 ∧ n.val = w.toNat / 2 ^ 12 % 16 ∧ a.val = w.toNat / 2 ^ 16 % 16) ∧
    (∀ n k, decode w = .command (.mrt n k) ↔
      w &&& 0x00FF0FFF = 0x00000003 ∧ n.val = w.toNat / 2 ^ 12 % 16 ∧ k.toNat = w.toNat / 2 ^ 24 % 256) ∧
    (∀ rd a b, decode w = .command (.egcd rd a b) ↔
      w &&& 0xFFF000FF = 0x00000004 ∧ rd.val ≤ 13 ∧ rd.val = w.toNat / 2 ^ 8 % 16 ∧ a.val = w.toNat / 2 ^ 12 % 16 ∧
        b.val = w.toNat / 2 ^ 16 % 16) ∧
    (∀ rd c p q, decode w = .command (.crtsqrt rd c p q) ↔
      w &&& 0xFF0000FF = 0x00000005 ∧ rd.val ≤ 12 ∧ rd.val = w.toNat / 2 ^ 8 % 16 ∧ c.val = w.toNat / 2 ^ 12 % 16 ∧
        p.val = w.toNat / 2 ^ 16 % 16 ∧ q.val = w.toNat / 2 ^ 20 % 16) ∧
    (∀ rd rs, decode w = .command (.tagsel rd rs) ↔
      w &&& 0xFFFF00FF = 0x00000006 ∧ rs.val ≤ 12 ∧ rd.val = w.toNat / 2 ^ 8 % 16 ∧ rs.val = w.toNat / 2 ^ 12 % 16)

/-- R88: a reserved opcode completes with ILLEGAL_OPCODE, whatever the word's other fields hold. -/
def Obligations.ReservedOpcodeCompletesWithIllegalOpcode : Prop :=
  ∀ (s : State) (b : Busy), s.rst = false → s.phase = .busy b → s.nextEvent = .engine →
    0x07 ≤ b.word.toNat % 2 ^ 8 →
    ∃ t, step s = .next t ∧ Failed s.pop t .illegalOpcode ∧ t.errcode.code = 0x01

/-- R89: an assigned opcode with a nonzero must-be-zero field (R86, row by row) completes with ILLEGAL_FIELD. -/
def Obligations.NonzeroReservedFieldCompletesWithIllegalField : Prop :=
  ∀ (s : State) (b : Busy), s.rst = false → s.phase = .busy b → s.nextEvent = .engine →
    (b.word.toNat % 2 ^ 8 = 0 ∧ b.word &&& 0xFFFFFF00 ≠ 0 ∨
      b.word.toNat % 2 ^ 8 = 1 ∧ b.word &&& 0xFF000000 ≠ 0 ∨
      b.word.toNat % 2 ^ 8 = 2 ∧ b.word &&& 0xFFF00F00 ≠ 0 ∨
      b.word.toNat % 2 ^ 8 = 3 ∧ b.word &&& 0x00FF0F00 ≠ 0 ∨
      b.word.toNat % 2 ^ 8 = 4 ∧ b.word &&& 0xFFF00000 ≠ 0 ∨
      b.word.toNat % 2 ^ 8 = 5 ∧ b.word &&& 0xFF000000 ≠ 0 ∨
      b.word.toNat % 2 ^ 8 = 6 ∧ b.word &&& 0xFFFF0000 ≠ 0) →
    ∃ t, step s = .next t ∧ Failed s.pop t .illegalField ∧ t.errcode.code = 0x02

/-- R90: EGCD with RD > 13, CRTSQRT with RD > 12 and TAGSEL with RS1 > 12 complete with ILLEGAL_FIELD: the word at the
engine's turn, and the command itself where the group does not fit. -/
def Obligations.GroupPastR15CompletesWithIllegalField : Prop :=
  (∀ (s : State) (b : Busy), s.rst = false → s.phase = .busy b → s.nextEvent = .engine →
    (b.word.toNat % 2 ^ 8 = 4 ∧ 13 < b.word.toNat / 2 ^ 8 % 16 ∨
      b.word.toNat % 2 ^ 8 = 5 ∧ 12 < b.word.toNat / 2 ^ 8 % 16 ∨
      b.word.toNat % 2 ^ 8 = 6 ∧ 12 < b.word.toNat / 2 ^ 12 % 16) →
    ∃ t, step s = .next t ∧ Failed s.pop t .illegalField ∧ t.errcode.code = 0x02) ∧
  ∀ (s : State) (b : Busy) (r x y z : RegIdx), s.phase = .busy b →
    (13 < r.val → ∃ t, exec (.egcd r x y) s = .next t ∧ Failed s t .illegalField) ∧
    (12 < r.val → ∃ t, exec (.crtsqrt r x y z) s = .next t ∧ Failed s t .illegalField) ∧
    (12 < r.val → ∃ t, exec (.tagsel x r) s = .next t ∧ Failed s t .illegalField)

/-! ### The step (R67, R87, R103) -/

/-- A step runs the decoded command: with the pin released and the engine's turn next, a step in a busy state whose
accepted word decodes to `i` is `exec i` on the state with that turn taken. -/
def Obligations.StepRunsTheAcceptedCommand : Prop :=
  ∀ (s : State) (b : Busy) (i : Instr), s.rst = false → s.phase = .busy b → s.nextEvent = .engine →
    decode b.word = .command i → step s = exec i s.pop

/-- No step faults, and a step refuses exactly a bus access while `rst` is asserted (R91: decode is total; R180: a failed
command completes; R200, 91 N16: no defined response). `exec` by itself stops exactly on an idle engine, where there is
no command to end (R25, R104). The forms of both stops are the model's choice (logs 8 and 9). -/
def Obligations.StopsOnlyInResetOrOnAnIdleEngine : Prop :=
  (∀ s : State, (∀ f, step s ≠ .fault f) ∧
    ∀ r, step s = .refused r ↔ r = .busDuringReset ∧ s.rst = true ∧ ∃ req, s.nextEvent = .bus req) ∧
  ∀ (i : Instr) (s : State), (exec i s = .fault .noCommand ↔ s.phase = .idle) ∧ ∀ r, exec i s ≠ .refused r

/-- R195: with BUSY = 0 the block holds its state through every event but a host write and reset, and nothing wakes it
but a write to CMD. -/
def Obligations.IdleBlockHoldsItsState : Prop :=
  ∀ s t : State, s.phase = .idle → step s = .next t →
    ((∀ off size v, s.nextEvent ≠ .bus (.write off size v)) → (∀ level, s.nextEvent ≠ .rst level) →
      t = { s with inputs := s.inputs.tail, outputs := t.outputs }) ∧
    (t.phase ≠ .idle → ∃ w : Word, s.nextEvent = .bus (.write 0x010 .word w))

/-! ### Acceptance and completion (R100 to R110) -/

/-- R100: a write of any word to CMD with BUSY = 0 is accepted in one step; with BUSY = 1 it is not accepted: it sets
BUSYERR and changes nothing else (R43). Either way it answers OKAY (R55). -/
def Obligations.CmdWritesAcceptedExactlyWhenIdle : Prop :=
  ∀ (s : State) (w : Word), s.rst = false → s.nextEvent = .bus (.write 0x010 .word w) →
    (s.phase = .idle →
      ∃ t, step s = .next t ∧ t.cmd = w ∧
        t.phase = .busy
          { word := w
            snap := s.regs
            sw := s.tagw
            sh := BitVec.ofNat 64 (s.taghHi.toNat * 2 ^ 32 + s.taghLo.toNat)
            draws := []
            rngReq := none } ∧
        t.busy = true ∧ t.done = false ∧ t.rflag = false ∧ t.errcode = .ok ∧
        t.busyerr = s.busyerr ∧ t.lockerr = s.lockerr ∧ t.ie = s.ie ∧ t.lock = s.lock ∧ t.regs = s.regs ∧
        t.tagw = s.tagw ∧ t.taghLo = s.taghLo ∧ t.taghHi = s.taghHi ∧ t.cfg = s.cfg ∧ t.rst = s.rst ∧
        t.inputs = s.inputs.tail ∧ t.outputs = s.outputs ++ [.writeResp .okay]) ∧
    (∀ b, s.phase = .busy b →
      step s = .next { s with busyerr := true, inputs := s.inputs.tail, outputs := s.outputs ++ [.writeResp .okay] })

/-- R104 and R107: every command but MRT completes at the engine's turn, with no input from outside the block. -/
def Obligations.CommandsButMrtCompleteInOneTurn : Prop :=
  ∀ (s : State) (b : Busy) (i : Instr), s.phase = .busy b → (∀ n k, i ≠ .mrt n k) →
    ∃ t, exec i s = .next t ∧ (Failed s t t.errcode ∧ t.errcode ≠ .ok ∨ Succeeded s t t.rflag (dests i))

/-- R105: a command that ends with an error, its decode included, writes no operand register and leaves RFLAG 0; nor
does it change CTRL, CMD, the tag or the sticky bits (R180). -/
def Obligations.ErrorsWriteNoRegister : Prop :=
  (∀ (s t : State) (b : Busy) (i : Instr), s.phase = .busy b → exec i s = .next t → t.phase = .idle →
    t.errcode ≠ .ok → Failed s t t.errcode) ∧
  ∀ (s t : State) (b : Busy), s.rst = false → s.phase = .busy b → s.nextEvent = .engine → step s = .next t →
    t.phase = .idle → t.errcode ≠ .ok → Failed s.pop t t.errcode

/-- A turn of the engine on a command changes no register but the command's destinations (R21). -/
def Obligations.CommandsWriteOnlyTheirDestinations : Prop :=
  ∀ (s t : State) (i : Instr) (j : RegIdx), exec i s = .next t → j ∉ dests i → t.reg j = s.reg j

/-- The frame by bytes: after a turn of the engine every byte of the window reads as before, but for the four bytes of
STATUS and the 0x200 bytes of each destination register (R21, R56, R57, R61, R104). -/
def Obligations.WindowBytesOutsideDestinationsKept : Prop :=
  ∀ (s t : State) (i : Instr) (a : Nat), exec i s = .next t →
    (a < s.cfg.base + 0x00C ∨ s.cfg.base + 0x010 ≤ a) →
    (∀ r ∈ dests i, a < s.cfg.base + 0x1000 + 0x200 * r.val ∨ s.cfg.base + 0x1000 + 0x200 * (r.val + 1) ≤ a) →
    t.windowByte a = s.windowByte a

/-- R102: execution is a pure function of the accepted word, the snapshot and the draws: two states that agree on
what BUSY holds (and on the width) end the command alike, whatever their live registers, tags and flags hold. -/
def Obligations.ExecutionDependsOnlyOnTheSnapshot : Prop :=
  ∀ (s₁ s₂ t₁ t₂ : State) (i : Instr), s₁.cfg = s₂.cfg → s₁.phase = s₂.phase →
    exec i s₁ = .next t₁ → exec i s₂ = .next t₂ →
    t₁.phase = t₂.phase ∧ (t₁.phase = .idle → t₁.errcode = t₂.errcode ∧ t₁.rflag = t₂.rflag ∧ t₁.done = t₂.done) ∧
      ∀ j, t₁.reg j = t₂.reg j ∨ t₁.reg j = s₁.reg j ∧ t₂.reg j = s₂.reg j

/-- R109: what the host sees while BUSY = 1. -/
def Obligations.HostSeesOldValuesWhileBusy : Prop :=
  ∀ (s : State) (b : Busy), s.Inv → s.phase = .busy b →
    s.statusWord.toNat = 1 + 8 * s.busyerr.toNat + 16 * s.lockerr.toNat ∧ s.windowWord 0x010 = b.word ∧
      (∀ i, s.reg i = b.src i) ∧ (s.windowWord 0x014).toNat = b.sw.toNat ∧
      (s.windowWord 0x01C).toNat * 2 ^ 32 + (s.windowWord 0x018).toNat = b.sh.toNat

/-- R110: NOP completes with RFLAG 0, ERRCODE 0x00, DONE 1 and writes nothing. -/
def Obligations.NopCompletes : Prop :=
  ∀ (s : State) (b : Busy), s.phase = .busy b → ∃ t, exec .nop s = .next t ∧ Succeeded s t false []

/-! ### MODEXP (R120 to R124) -/

/-- R120 with R122: for n ≠ 0, `R[rd]` gets `a^d mod n`, RFLAG 0, nothing else changes; a register named twice, or both
source and destination, is read from the snapshot (R106). -/
def Obligations.ModexpWritesPowerModN : Prop :=
  ∀ (s : State) (b : Busy) (rd ra rx rn : RegIdx), s.phase = .busy b → b.InRange s.cfg → b.src rn ≠ 0 →
    ∃ t, exec (.modexp rd ra rx rn) s = .next t ∧ Succeeded s t false [rd] ∧
      t.reg rd = b.src ra ^ b.src rx % b.src rn

/-- R124: MODEXP rejects n = 0 with MOD_ZERO. -/
def Obligations.ModexpRejectsZeroModulus : Prop :=
  ∀ (s : State) (b : Busy) (rd ra rx rn : RegIdx), s.phase = .busy b → b.src rn = 0 →
    ∃ t, exec (.modexp rd ra rx rn) s = .next t ∧ Failed s t .modZero

/-! ### MRW and MRT (R130 to R137) -/

/-- The verdict of `witness` (R131) without its loop: for `n − 1 = u · 2^t` with u odd, "no evidence of compositeness"
exactly when `a^u mod n = 1` or some `a^(u·2^i) mod n` with i < t is `n − 1`. -/
def Obligations.WitnessIsTheStrongProbablePrimeTest : Prop :=
  ∀ n a u t : Nat, 2 ≤ n → n - 1 = u * 2 ^ t → u % 2 = 1 →
    (witness n a = true ↔ a ^ u % n = 1 ∨ ∃ i, i < t ∧ a ^ (u * 2 ^ i) % n = n - 1)

/-- R130: MRW reports the witness test of the given base in RFLAG and writes no register; n < 2 is MR_SMALL_N. -/
def Obligations.MrwReportsTheWitnessTest : Prop :=
  ∀ (s : State) (b : Busy) (rn ra : RegIdx), s.phase = .busy b →
    (2 ≤ b.src rn →
      ∃ t, exec (.mrw rn ra) s = .next t ∧ Succeeded s t (witness (b.src rn) (b.src ra)) []) ∧
    (b.src rn < 2 → ∃ t, exec (.mrw rn ra) s = .next t ∧ Failed s t .mrSmallN)

/-- R132: the verdicts MRT gives without a trial: n < 2 composite, 2 and 3 prime, even n > 3 composite, and k = 0 prime
for every odd n ≥ 5. -/
def Obligations.MrtDefiniteVerdicts : Prop :=
  ∀ (s : State) (b : Busy) (rn : RegIdx) (k : BitVec 8), s.phase = .busy b →
    (b.src rn < 2 → ∃ t, exec (.mrt rn k) s = .next t ∧ Succeeded s t false []) ∧
    (b.src rn = 2 ∨ b.src rn = 3 → ∃ t, exec (.mrt rn k) s = .next t ∧ Succeeded s t true []) ∧
    (3 < b.src rn ∧ b.src rn % 2 = 0 → ∃ t, exec (.mrt rn k) s = .next t ∧ Succeeded s t false []) ∧
    (5 ≤ b.src rn ∧ b.src rn % 2 = 1 ∧ k = 0 → ∃ t, exec (.mrt rn k) s = .next t ∧ Succeeded s t true [])

/-- R132 for odd n ≥ 5, on the draws consumed so far: prime when k draws have passed their trials, composite at the
first draw that fails. -/
def Obligations.MrtVerdictFromTheDraws : Prop :=
  ∀ (s : State) (b : Busy) (rn : RegIdx) (k : BitVec 8), s.phase = .busy b → 5 ≤ b.src rn → b.src rn % 2 = 1 →
    (k.toNat ≤ b.draws.length → (∀ a ∈ b.draws.take k.toNat, witness (b.src rn) a = true) →
      ∃ t, exec (.mrt rn k) s = .next t ∧ Succeeded s t true []) ∧
    (∀ passed a rest, b.draws = passed ++ a :: rest → passed.length < k.toNat →
      (∀ d ∈ passed, witness (b.src rn) d = true) → witness (b.src rn) a = false →
      ∃ t, exec (.mrt rn k) s = .next t ∧ Succeeded s t false [])

/-- R72 and R134: a trial with no draw yet asks the RNG port for a base in `[2, n − 2]`, one request at a time; with that
request already outstanding the engine waits, and nothing changes. -/
def Obligations.MrtAsksForOneBaseATrial : Prop :=
  ∀ (s : State) (b : Busy) (rn : RegIdx) (k : BitVec 8), s.phase = .busy b → 5 ≤ b.src rn → b.src rn % 2 = 1 →
    b.draws.length < k.toNat → (∀ a ∈ b.draws, witness (b.src rn) a = true) →
    (b.rngReq = none →
      exec (.mrt rn k) s = .next
        { s with
          phase := .busy { b with rngReq := some { lo := 2, hi := b.src rn - 2 } }
          outputs := s.outputs ++ [.rngRequest { lo := 2, hi := b.src rn - 2 }] }) ∧
    (b.rngReq ≠ none → exec (.mrt rn k) s = .next s)

/-- R72 and R73: an answer in range is consumed as the next draw; one out of range is discarded and the same request is
repeated on the port; with no request outstanding an answer is discarded (R201). The port is NBITS wide (R50). Two points
are the model's choice: the repeated request shows in the step that discards the answer (log 11), and while a request is
outstanding every answer counts as its answer, a late one to a request that a reset has withdrawn included (log 17). -/
def Obligations.RngAnswersConsumedOrDiscarded : Prop :=
  ∀ (s : State) (v : Nat), s.rst = false → s.nextEvent = .rng v → v < 2 ^ s.cfg.nbits →
    (∀ b r, s.phase = .busy b → b.rngReq = some r → r.lo ≤ v → v ≤ r.hi →
      step s = .next
        { s with phase := .busy { b with draws := b.draws ++ [v], rngReq := none }, inputs := s.inputs.tail }) ∧
    (∀ b r, s.phase = .busy b → b.rngReq = some r → (v < r.lo ∨ r.hi < v) →
      step s = .next { s with inputs := s.inputs.tail, outputs := s.outputs ++ [.rngRequest r] }) ∧
    ((∀ b, s.phase = .busy b → b.rngReq = none) → step s = .next { s with inputs := s.inputs.tail })

/-- R132 to R134 over a whole MRT: from acceptance, with any list of RNG answers each followed by a turn of the
engine, once k of them lie in `[2, n − 2]` the command has completed, and RFLAG says whether the first k of those all
pass the witness test. Answers out of range, and answers after the verdict, make no difference. The list of events is
the model's form of the interleaving (log 2), and request, answer and turn are steps of their own (log 5). Which
answers count is the model's choice where the MRT was reissued after a reset: a late answer to the withdrawn request
counts as the new request's (log 17). -/
def Obligations.MrtRunDecidesByFirstInRangeAnswers : Prop :=
  ∀ (s : State) (b : Busy) (rn : RegIdx) (k : BitVec 8) (answers : List Nat), s.rst = false → s.phase = .busy b →
    decode b.word = .command (.mrt rn k) → 5 ≤ b.src rn → b.src rn % 2 = 1 → b.draws = [] → b.rngReq = none →
    (∀ v ∈ answers, v < 2 ^ s.cfg.nbits) → s.inputs = .engine :: answers.flatMap (fun v => [.rng v, .engine]) →
    k.toNat ≤ (answers.filter fun v => decide (2 ≤ v ∧ v ≤ b.src rn - 2)).length →
    ∃ t, Sys2Proof.core.run (1 + 2 * answers.length) s = .next t ∧ t.phase = .idle ∧ t.done = true ∧
      t.errcode = .ok ∧ t.regs = s.regs ∧
      t.rflag = ((answers.filter fun v => decide (2 ≤ v ∧ v ≤ b.src rn - 2)).take k.toNat).all (witness (b.src rn))

/-- R74: an MRT whose outstanding request gets no answer in range stays busy with what it holds, for any number of steps,
whatever the host does in the meantime: stuck, not a fault. Only reset ends it. -/
def Obligations.MrtWithoutAnAnswerInRangeStaysBusy : Prop :=
  ∀ (s : State) (b : Busy) (rn : RegIdx) (k : BitVec 8) (m : Nat), s.rst = false → s.phase = .busy b →
    decode b.word = .command (.mrt rn k) → 5 ≤ b.src rn → b.src rn % 2 = 1 → b.draws.length < k.toNat →
    (∀ a ∈ b.draws, witness (b.src rn) a = true) → b.rngReq = some { lo := 2, hi := b.src rn - 2 } →
    (∀ e ∈ s.inputs, (∀ level, e ≠ .rst level) ∧
      ∀ v, e = .rng v → v % 2 ^ s.cfg.nbits < 2 ∨ b.src rn - 2 < v % 2 ^ s.cfg.nbits) →
    ∃ t, Sys2Proof.core.run m s = .next t ∧ t.phase = .busy b

/-- R136 (1) and (2): a failing witness proves that n is not prime or divides the base; an odd prime passes every base
it does not divide. -/
def Obligations.WitnessFailureProvesCompositeness : Prop :=
  (∀ n a : Nat, 2 ≤ n → witness n a = false → ¬ n.Prime ∨ n ∣ a) ∧
  ∀ n a : Nat, n.Prime → n % 2 = 1 → ¬ n ∣ a → witness n a = true

/-- R136 (3): MRT never reports 0 for a prime: in a state of the invariant, an MRT on a prime that completes leaves
RFLAG = 1. -/
def Obligations.MrtNeverRejectsAPrime : Prop :=
  ∀ (s t : State) (b : Busy) (rn : RegIdx) (k : BitVec 8), s.Inv → s.phase = .busy b →
    decode b.word = .command (.mrt rn k) → (b.src rn).Prime → exec (.mrt rn k) s = .next t → t.phase = .idle →
    t.rflag = true

/-! ### EGCD (R150 to R152) -/

/-- R150 without its loop: `egcd(a, 0) = (a, 1, 0)`, and for b > 0 the triple of `(a, b)` comes from that of
`(b, a mod b)` by Euclid's step. These two equations fix g, s and t for every a and b. -/
def Obligations.EgcdFollowsEuclid : Prop :=
  (∀ a : Nat, egcd a 0 = { g := a, s := 1, t := 0 }) ∧
  ∀ a b : Nat, 0 < b →
    egcd a b =
      { g := (egcd b (a % b)).g
        s := (egcd b (a % b)).t
        t := (egcd b (a % b)).s - (a / b : Nat) * (egcd b (a % b)).t }

/-- R151 and R152: EGCD always completes with success; `R[rd]` is gcd(a, b), and `R[rd+1]`, `R[rd+2]` hold in
two's complement (R13) the coefficients of R150, for which s·a + t·b = gcd(a, b): COEF_RANGE never arises. -/
def Obligations.EgcdWritesGcdAndBezoutCoefficients : Prop :=
  ∀ (s : State) (b : Busy) (rd ra rb : RegIdx), s.phase = .busy b → b.InRange s.cfg → rd.val ≤ 13 →
    ∃ t, exec (.egcd rd ra rb) s = .next t ∧ Succeeded s t false [member rd 0, member rd 1, member rd 2] ∧
      t.reg (member rd 0) = Nat.gcd (b.src ra) (b.src rb) ∧
      u2s s.cfg.nbits (t.reg (member rd 1)) = (egcd (b.src ra) (b.src rb)).s ∧
      u2s s.cfg.nbits (t.reg (member rd 2)) = (egcd (b.src ra) (b.src rb)).t ∧
      u2s s.cfg.nbits (t.reg (member rd 1)) * b.src ra + u2s s.cfg.nbits (t.reg (member rd 2)) * b.src rb =
        Nat.gcd (b.src ra) (b.src rb)

/-! ### CRTSQRT (R160 to R166) -/

/-- R160, R164 and R165: for a key that passes the checks, the group at rd gets x, n − x, y, n − y, where x is the value
in `[0, n)` with x ≡ mP (mod p) and x ≡ mQ (mod q), and y the one with y ≡ −mP (mod p) and y ≡ mQ (mod q), for
mP = c^((p+1)/4) mod p and mQ = c^((q+1)/4) mod q; c is used as given (R166). -/
def Obligations.CrtSqrtWritesFourCandidates : Prop :=
  ∀ (s : State) (b : Busy) (rd rc rp rq : RegIdx), s.phase = .busy b → rd.val ≤ 12 →
    b.src rp % 4 = 3 → b.src rq % 4 = 3 → b.src rp ≠ b.src rq → b.src rp * b.src rq < 2 ^ s.cfg.nbits →
    Nat.gcd (b.src rp) (b.src rq) = 1 →
    ∃ t x y, exec (.crtsqrt rd rc rp rq) s = .next t ∧
      Succeeded s t false [member rd 0, member rd 1, member rd 2, member rd 3] ∧
      t.reg (member rd 0) = x ∧ t.reg (member rd 1) = b.src rp * b.src rq - x ∧
      t.reg (member rd 2) = y ∧ t.reg (member rd 3) = b.src rp * b.src rq - y ∧
      x < b.src rp * b.src rq ∧ x % b.src rp = b.src rc ^ ((b.src rp + 1) / 4) % b.src rp ∧
      x % b.src rq = b.src rc ^ ((b.src rq + 1) / 4) % b.src rq ∧
      y < b.src rp * b.src rq ∧ (y + b.src rc ^ ((b.src rp + 1) / 4)) % b.src rp = 0 ∧
      y % b.src rq = b.src rc ^ ((b.src rq + 1) / 4) % b.src rq

/-- R162 (and R184): the key checks of CRTSQRT, in their order, each with its error; a key that passes them completes with
success, prime or not. -/
def Obligations.CrtSqrtChecksTheKeyInOrder : Prop :=
  ∀ (s : State) (b : Busy) (rd rc rp rq : RegIdx), s.phase = .busy b → rd.val ≤ 12 →
    (b.src rp % 4 ≠ 3 ∨ b.src rq % 4 ≠ 3 →
      ∃ t, exec (.crtsqrt rd rc rp rq) s = .next t ∧ Failed s t .keyNot3Mod4) ∧
    (b.src rp % 4 = 3 → b.src rq % 4 = 3 → b.src rp = b.src rq →
      ∃ t, exec (.crtsqrt rd rc rp rq) s = .next t ∧ Failed s t .keyEqual) ∧
    (b.src rp % 4 = 3 → b.src rq % 4 = 3 → b.src rp ≠ b.src rq → 2 ^ s.cfg.nbits ≤ b.src rp * b.src rq →
      ∃ t, exec (.crtsqrt rd rc rp rq) s = .next t ∧ Failed s t .keyRange) ∧
    (b.src rp % 4 = 3 → b.src rq % 4 = 3 → b.src rp ≠ b.src rq → b.src rp * b.src rq < 2 ^ s.cfg.nbits →
      Nat.gcd (b.src rp) (b.src rq) ≠ 1 →
      ∃ t, exec (.crtsqrt rd rc rp rq) s = .next t ∧ Failed s t .keyNotCoprime) ∧
    (b.src rp % 4 = 3 → b.src rq % 4 = 3 → b.src rp ≠ b.src rq → b.src rp * b.src rq < 2 ^ s.cfg.nbits →
      Nat.gcd (b.src rp) (b.src rq) = 1 →
      ∃ t, exec (.crtsqrt rd rc rp rq) s = .next t ∧ Succeeded s t false (dests (.crtsqrt rd rc rp rq)))

/-- R163 with R165: for distinct primes p, q ≡ 3 (mod 4) and c a square modulo both, each of the four candidates is a
square root of c modulo n. -/
def Obligations.CrtSqrtCandidatesAreSquareRoots : Prop :=
  ∀ (s : State) (b : Busy) (rd rc rp rq : RegIdx) (m : Nat), s.phase = .busy b → rd.val ≤ 12 →
    (b.src rp).Prime → (b.src rq).Prime → b.src rp % 4 = 3 → b.src rq % 4 = 3 → b.src rp ≠ b.src rq →
    b.src rp * b.src rq < 2 ^ s.cfg.nbits → b.src rc % (b.src rp * b.src rq) = m ^ 2 % (b.src rp * b.src rq) →
    ∃ t, exec (.crtsqrt rd rc rp rq) s = .next t ∧
      ∀ j, j < 4 → t.reg (member rd j) ^ 2 % (b.src rp * b.src rq) = b.src rc % (b.src rp * b.src rq)

/-! ### TAGSEL (R161, R169, R170) -/

/-- R161 and R169: with a legal tag configuration, TAGSEL writes the first of the four candidates that carries the
tag, shifted right by W, and sets RFLAG. -/
def Obligations.TagselRecoversFirstTaggedCandidate : Prop :=
  ∀ (s : State) (b : Busy) (rd rs : RegIdx) (j : Nat), s.phase = .busy b → b.InRange s.cfg → rs.val ≤ 12 →
    1 ≤ b.sw.toNat → b.sw.toNat ≤ 64 → b.sw.toNat < s.cfg.nbits → b.sh.toNat < 2 ^ b.sw.toNat → j < 4 →
    b.src (member rs j) % 2 ^ b.sw.toNat = b.sh.toNat →
    (∀ k, k < j → b.src (member rs k) % 2 ^ b.sw.toNat ≠ b.sh.toNat) →
    ∃ t, exec (.tagsel rd rs) s = .next t ∧ Succeeded s t true [rd] ∧
      t.reg rd = b.src (member rs j) / 2 ^ b.sw.toNat

/-- R161: an illegal tag configuration is TAG_CONFIG, checked before the scan; no candidate with the tag is
TAG_MISMATCH. -/
def Obligations.TagselErrors : Prop :=
  ∀ (s : State) (b : Busy) (rd rs : RegIdx), s.phase = .busy b → rs.val ≤ 12 →
    (b.sw.toNat < 1 ∨ 64 < b.sw.toNat ∨ s.cfg.nbits ≤ b.sw.toNat ∨ 2 ^ b.sw.toNat ≤ b.sh.toNat →
      ∃ t, exec (.tagsel rd rs) s = .next t ∧ Failed s t .tagConfig) ∧
    (1 ≤ b.sw.toNat → b.sw.toNat ≤ 64 → b.sw.toNat < s.cfg.nbits → b.sh.toNat < 2 ^ b.sw.toNat →
      (∀ k, k < 4 → b.src (member rs k) % 2 ^ b.sw.toNat ≠ b.sh.toNat) →
      ∃ t, exec (.tagsel rd rs) s = .next t ∧ Failed s t .tagMismatch)

/-- R170: the round trip. For distinct primes p, q ≡ 3 (mod 4) with p·q < 2^NBITS, a legal tag configuration and
M = m·2^W + h < n, CRTSQRT on c = M² mod n and then TAGSEL on its candidates give m back, if no candidate before M in
scan order carries the tag. -/
def Obligations.DecryptionRecoversThePlaintext : Prop :=
  ∀ (s₁ s₂ t₁ : State) (b₁ b₂ : Busy) (rt rc rp rq rd : RegIdx) (m : Nat),
    s₁.phase = .busy b₁ → s₂.phase = .busy b₂ → s₂.cfg = s₁.cfg → rt.val ≤ 12 →
    (b₁.src rp).Prime → (b₁.src rq).Prime → b₁.src rp % 4 = 3 → b₁.src rq % 4 = 3 → b₁.src rp ≠ b₁.src rq →
    b₁.src rp * b₁.src rq < 2 ^ s₁.cfg.nbits →
    1 ≤ b₂.sw.toNat → b₂.sw.toNat ≤ 64 → b₂.sw.toNat < s₁.cfg.nbits → b₂.sh.toNat < 2 ^ b₂.sw.toNat →
    m * 2 ^ b₂.sw.toNat + b₂.sh.toNat < b₁.src rp * b₁.src rq →
    b₁.src rc = (m * 2 ^ b₂.sw.toNat + b₂.sh.toNat) ^ 2 % (b₁.src rp * b₁.src rq) →
    exec (.crtsqrt rt rc rp rq) s₁ = .next t₁ →
    (∀ k, k < 4 → b₂.src (member rt k) = t₁.reg (member rt k)) →
    (∀ k, k < 4 → t₁.reg (member rt k) % 2 ^ b₂.sw.toNat = b₂.sh.toNat →
      ∃ k', k' ≤ k ∧ t₁.reg (member rt k') = m * 2 ^ b₂.sw.toNat + b₂.sh.toNat) →
    ∃ t₂, exec (.tagsel rd rt) s₂ = .next t₂ ∧ Succeeded s₂ t₂ true [rd] ∧ t₂.reg rd = m

/-! ### The bus (R50 to R64) -/

/-- R54: an aligned word read answers OKAY with the word of the window, and changes no state. -/
def Obligations.HostReadsChangeNothing : Prop :=
  ∀ (s : State) (off : Offset), s.rst = false → s.nextEvent = .bus (.read off .word) → off.toNat % 4 = 0 →
    step s = .next { s with inputs := s.inputs.tail, outputs := s.outputs ++ [.readResp .okay (s.windowWord off)] }

/-- R60: an access of 1 or 2 bytes, or one whose offset is no multiple of 4, answers SLVERR and changes no state; a read
returns 0. -/
def Obligations.OnlyAlignedWordsAreAccepted : Prop :=
  ∀ (s : State) (off : Offset) (size : AccessSize), s.rst = false → size ≠ .word ∨ off.toNat % 4 ≠ 0 →
    (s.nextEvent = .bus (.read off size) →
      step s = .next { s with inputs := s.inputs.tail, outputs := s.outputs ++ [.readResp .slverr 0] }) ∧
    ∀ v, s.nextEvent = .bus (.write off size v) →
      step s = .next { s with inputs := s.inputs.tail, outputs := s.outputs ++ [.writeResp .slverr] }

/-- R33, R36, R43, R44 and R45: what each control register with state reads, as numbers. -/
def Obligations.ControlRegistersRead : Prop :=
  ∀ s : State,
    (s.windowWord 0x008).toNat = s.ie.toNat + 2 * s.lock.toNat ∧
    (s.windowWord 0x00C).toNat =
      s.busy.toNat + 2 * s.done.toNat + 4 * s.rflag.toNat + 8 * s.busyerr.toNat + 16 * s.lockerr.toNat +
        2 ^ 8 * s.errcode.code.toNat ∧
    s.windowWord 0x010 = s.cmd ∧ (s.windowWord 0x014).toNat = s.tagw.toNat ∧
    s.windowWord 0x018 = s.taghLo ∧ s.windowWord 0x01C = s.taghHi

/-- R57 and R62: limb w of R[r] is read at 0x1000 + 0x200·r + 4·w, its bits `[32w+31 : 32w]`; limbs at or past NWORDS
read 0. -/
def Obligations.LimbReadsAreSlices : Prop :=
  ∀ (s : State) (r : RegIdx) (w : Nat), w < 128 →
    (s.windowWord (BitVec.ofNat 14 (0x1000 + 0x200 * r.val + 4 * w))).toNat =
      if w < s.cfg.nwords then s.reg r / 2 ^ (32 * w) % 2 ^ 32 else 0

/-- R62: the integer a register holds is the sum of its limbs as read, limb w with weight 2^(32w). -/
def Obligations.RegisterIsTheSumOfItsLimbs : Prop :=
  ∀ (s : State) (r : RegIdx), s.reg r < 2 ^ s.cfg.nbits →
    ((List.range s.cfg.nwords).map fun w =>
      (s.windowWord (BitVec.ofNat 14 (0x1000 + 0x200 * r.val + 4 * w))).toNat * 2 ^ (32 * w)).sum = s.reg r

/-- R59: a reserved offset reads 0 and answers OKAY with no side effect; a write to it is ignored, answers OKAY and sets
no error bit, not even while busy. -/
def Obligations.ReservedOffsetsReadZeroAndIgnoreWrites : Prop :=
  ∀ (s : State) (off : Offset), s.rst = false → (0x0020 ≤ off.toNat ∧ off.toNat ≤ 0x0FFF ∨ 0x3000 ≤ off.toNat) →
    off.toNat % 4 = 0 →
    (s.nextEvent = .bus (.read off .word) →
      step s = .next { s with inputs := s.inputs.tail, outputs := s.outputs ++ [.readResp .okay 0] }) ∧
    ∀ v, s.nextEvent = .bus (.write off .word v) →
      step s = .next { s with inputs := s.inputs.tail, outputs := s.outputs ++ [.writeResp .okay] }

/-- R31 and R32: ID reads its constant and PARAM the constants of the built block in every state, a write to either is
ignored and answers OKAY, and no step, reset included, changes what they read. -/
def Obligations.IdAndParamAreConstants : Prop :=
  (∀ s : State, s.windowWord 0x000 = 0x52414231 ∧
    (s.windowWord 0x004).toNat % 2 ^ 16 = s.cfg.nbits / 32 ∧ (s.windowWord 0x004).toNat / 2 ^ 16 % 2 ^ 8 = 16 ∧
    (s.windowWord 0x004).toNat / 2 ^ 24 = 0x01) ∧
  (∀ (s : State) (off : Offset) (v : Word), off = 0x000 ∨ off = 0x004 → s.rst = false →
    s.nextEvent = .bus (.write off .word v) →
    step s = .next { s with inputs := s.inputs.tail, outputs := s.outputs ++ [.writeResp .okay] }) ∧
  ∀ s t : State, step s = .next t →
    t.cfg = s.cfg ∧ t.windowWord 0x000 = s.windowWord 0x000 ∧ t.windowWord 0x004 = s.windowWord 0x004

/-- R58: while idle a limb write replaces that limb and leaves the others and every other register as they were; a
limb at or past NWORDS is ignored; while busy the write is dropped and sets BUSYERR. -/
def Obligations.LimbWritesReplaceOneLimb : Prop :=
  ∀ (s : State) (r : RegIdx) (w : Nat) (v : Word), s.rst = false → w < 128 → s.reg r < 2 ^ s.cfg.nbits →
    s.nextEvent = .bus (.write (BitVec.ofNat 14 (0x1000 + 0x200 * r.val + 4 * w)) .word v) →
    (s.phase = .idle → w < s.cfg.nwords →
      ∃ regs, step s = .next
          { s with regs := regs, inputs := s.inputs.tail, outputs := s.outputs ++ [.writeResp .okay] } ∧
        (∀ j, j ≠ r → regs[j] = s.reg j) ∧ regs[r] < 2 ^ s.cfg.nbits ∧
        ∀ k, regs[r] / 2 ^ (32 * k) % 2 ^ 32 = if k = w then v.toNat else s.reg r / 2 ^ (32 * k) % 2 ^ 32) ∧
    (s.phase = .idle → s.cfg.nwords ≤ w →
      step s = .next { s with inputs := s.inputs.tail, outputs := s.outputs ++ [.writeResp .okay] }) ∧
    (∀ b, s.phase = .busy b →
      step s = .next
        { s with busyerr := true, inputs := s.inputs.tail, outputs := s.outputs ++ [.writeResp .okay] })

/-- R33, R34 and R35: a write to CTRL sets IE to bit 0, sets LOCK if bit 1 is 1 and otherwise leaves it, whether the
engine is busy or idle. -/
def Obligations.CtrlWriteSetsIeAndLock : Prop :=
  ∀ (s : State) (v : Word), s.rst = false → s.nextEvent = .bus (.write 0x008 .word v) →
    step s = .next
      { s with
        ie := decide (v.toNat % 2 = 1)
        lock := s.lock || decide (v.toNat / 2 % 2 = 1)
        inputs := s.inputs.tail
        outputs := s.outputs ++ [.writeResp .okay] }

/-- R36: a write to STATUS clears each W1C bit (DONE, BUSYERR, LOCKERR) that is 1 in the written word and changes
nothing else. -/
def Obligations.StatusWriteClearsWrittenOnes : Prop :=
  ∀ (s : State) (v : Word), s.rst = false → s.nextEvent = .bus (.write 0x00C .word v) →
    step s = .next
      { s with
        done := if v.toNat / 2 % 2 = 1 then false else s.done
        busyerr := if v.toNat / 8 % 2 = 1 then false else s.busyerr
        lockerr := if v.toNat / 16 % 2 = 1 then false else s.lockerr
        inputs := s.inputs.tail
        outputs := s.outputs ++ [.writeResp .okay] }

/-- R40, R41, R44, R45 and R55: a write to a tag register stores while idle and unlocked; otherwise it is dropped and
sets BUSYERR if busy, LOCKERR if locked, both if both. -/
def Obligations.TagWritesStoreOnlyIdleAndUnlocked : Prop :=
  ∀ (s : State) (off : Offset) (v : Word), off = 0x014 ∨ off = 0x018 ∨ off = 0x01C → s.rst = false →
    s.nextEvent = .bus (.write off .word v) →
    (s.busy = false → s.lock = false →
      step s = .next
        { s with
          tagw := if off = 0x014 then BitVec.ofNat 8 v.toNat else s.tagw
          taghLo := if off = 0x018 then v else s.taghLo
          taghHi := if off = 0x01C then v else s.taghHi
          inputs := s.inputs.tail
          outputs := s.outputs ++ [.writeResp .okay] }) ∧
    (s.busy = true ∨ s.lock = true →
      step s = .next
        { s with
          busyerr := s.busyerr || s.busy
          lockerr := s.lockerr || s.lock
          inputs := s.inputs.tail
          outputs := s.outputs ++ [.writeResp .okay] })

/-- R94: `LDR Rr, v` expands to NWORDS limb writes; run while idle they leave R[r] holding v and change no other
register and no flag. -/
def Obligations.LoadRegisterWritesTheWholeValue : Prop :=
  ∀ (s : State) (r : RegIdx) (v : Nat) (rest : List Event), s.rst = false → s.phase = .idle → s.reg r < 2 ^ s.cfg.nbits →
    v < 2 ^ s.cfg.nbits → s.inputs = ldr s.cfg r v ++ rest →
    ∃ t, Sys2Proof.core.run s.cfg.nwords s = .next t ∧ t.reg r = v ∧ (∀ j, j ≠ r → t.reg j = s.reg j) ∧
      t.phase = .idle ∧ t.statusWord = s.statusWord ∧ t.ctrlWord = s.ctrlWord ∧ t.cmd = s.cmd ∧ t.tagw = s.tagw ∧
      t.tagh = s.tagh ∧ t.inputs = rest

/-! ### Whole-machine rules (R21, R35, R40, R41, R186, R203) -/

/-- R203: only reset clears LOCK, and while LOCK is 1 only reset changes the tag; only reset abandons a command: every
other step leaves it executing on the same word and snapshot, or completes it. -/
def Obligations.OnlyResetUnlocksOrAbandons : Prop :=
  ∀ s t : State, step s = .next t → (∀ level, s.nextEvent ≠ .rst level) →
    (s.lock = true → t.lock = true ∧ t.tagw = s.tagw ∧ t.taghLo = s.taghLo ∧ t.taghHi = s.taghHi) ∧
    ∀ b, s.phase = .busy b →
      (∃ b', t.phase = .busy b' ∧ b'.word = b.word ∧ b'.snap = b.snap ∧ b'.sw = b.sw ∧ b'.sh = b.sh) ∨
      t.phase = .idle ∧ t.done = true

/-- R40 and R41: a step other than reset leaves BUSYERR at 1 exactly when it was 1 and the step is no STATUS write with
bit 3, or when the step is a write, with BUSY = 1, to CMD, the operand window or a tag register; and LOCKERR alike with
bit 4, for a write to a tag register with LOCK = 1. Reset clears both. -/
def Obligations.StickyBitsSetByDroppedWrites : Prop :=
  (∀ s t : State, step s = .next t → (∀ level, s.nextEvent ≠ .rst level) →
    (t.busyerr = true ↔
      (s.busyerr = true ∧ ¬ ∃ v : Word, s.nextEvent = .bus (.write 0x00C .word v) ∧ v.toNat / 2 ^ 3 % 2 = 1) ∨
      (s.busy = true ∧ ∃ (off : Offset) (v : Word), s.nextEvent = .bus (.write off .word v) ∧ off.toNat % 4 = 0 ∧
        (off = 0x010 ∨ off = 0x014 ∨ off = 0x018 ∨ off = 0x01C ∨ 0x1000 ≤ off.toNat ∧ off.toNat ≤ 0x2FFF))) ∧
    (t.lockerr = true ↔
      (s.lockerr = true ∧ ¬ ∃ v : Word, s.nextEvent = .bus (.write 0x00C .word v) ∧ v.toNat / 2 ^ 4 % 2 = 1) ∨
      (s.lock = true ∧ ∃ (off : Offset) (v : Word), s.nextEvent = .bus (.write off .word v) ∧
        (off = 0x014 ∨ off = 0x018 ∨ off = 0x01C)))) ∧
  ∀ (s : State) (level : Bool), s.nextEvent = .rst level → level = true ∨ s.rst = true →
    ∃ t, step s = .next t ∧ t.busyerr = false ∧ t.lockerr = false

/-- R21: an operand register changes only by a host write to one of its limbs while BUSY = 0, by the completion of a
command that ended with ERRCODE = 0 and has it as a destination, or by reset. -/
def Obligations.RegistersChangeOnlyByWriteCompletionOrReset : Prop :=
  ∀ (s t : State) (j : RegIdx), step s = .next t → t.reg j ≠ s.reg j →
    (∃ (off : Offset) (v : Word), s.nextEvent = .bus (.write off .word v) ∧ s.busy = false ∧
      0x1000 + 0x200 * j.val ≤ off.toNat ∧ off.toNat < 0x1000 + 0x200 * (j.val + 1)) ∨
    (∃ (b : Busy) (i : Instr), s.nextEvent = .engine ∧ s.phase = .busy b ∧ decode b.word = .command i ∧
      j ∈ dests i ∧ t.errcode = .ok ∧ t.phase = .idle) ∨
    ∃ level, s.nextEvent = .rst level

/-- R186: `irq` is `DONE ∧ IE`; completion, with success or with an error, raises it exactly when it is enabled; a CTRL
write enables or masks it and keeps DONE; a STATUS write with bit 1, acceptance and reset lower it. -/
def Obligations.IrqFollowsDoneAndEnable : Prop :=
  (∀ s : State, s.irq = (s.done && s.ie)) ∧
  (∀ (s t : State) (b : Busy), s.rst = false → s.phase = .busy b → s.nextEvent = .engine → step s = .next t →
    t.phase = .idle → t.irq = s.ie) ∧
  (∀ (s : State) (v : Word), s.rst = false → s.nextEvent = .bus (.write 0x008 .word v) →
    ∃ t, step s = .next t ∧ t.done = s.done ∧ t.irq = (s.done && decide (v.toNat % 2 = 1))) ∧
  (∀ (s : State) (v : Word), s.rst = false → s.nextEvent = .bus (.write 0x00C .word v) → v.toNat / 2 % 2 = 1 →
    ∃ t, step s = .next t ∧ t.irq = false) ∧
  (∀ (s : State) (w : Word), s.rst = false → s.phase = .idle → s.nextEvent = .bus (.write 0x010 .word w) →
    ∃ t, step s = .next t ∧ t.irq = false) ∧
  ∀ (s : State) (level : Bool), s.nextEvent = .rst level → level = true ∨ s.rst = true →
    ∃ t, step s = .next t ∧ t.irq = false

/-! ### Reset (R49, R200, R201) and the invariant -/

/-- R49: the value of every piece of state after reset, for every built block. -/
def Obligations.ResetValues : Prop :=
  ∀ c : Config,
    (∀ i, (State.resetOf c).reg i = 0) ∧ (State.resetOf c).phase = .idle ∧
    (State.resetOf c).windowWord 0x000 = 0x52414231 ∧
    ((State.resetOf c).windowWord 0x004).toNat = c.nwords + 0x01100000 ∧
    (State.resetOf c).windowWord 0x008 = 0 ∧ (State.resetOf c).windowWord 0x00C = 0 ∧
    (State.resetOf c).windowWord 0x010 = 0 ∧ (State.resetOf c).windowWord 0x014 = 0 ∧
    (State.resetOf c).windowWord 0x018 = 0 ∧ (State.resetOf c).windowWord 0x01C = 0 ∧
    (State.resetOf c).irq = false

/-- R200 and R201: in every state, busy or not, driving `rst` high, and releasing it when it was high, gives every piece
of the block's state its reset value: an executing command is abandoned, its result, DONE and RNG request with it, `irq`
does not rise, and an answer that comes while the block is idle is discarded. The pin as events with these two edges is
the model's form (log 10); an answer that comes after a reissued MRT has placed a request of its own counts as that
request's, which is the model's choice (log 17) and not R201's discard. -/
def Obligations.ResetRestoresEveryValue : Prop :=
  (∀ (s : State) (level : Bool), s.nextEvent = .rst level → level = true ∨ s.rst = true →
    step s = .next { State.resetOf s.cfg with rst := level, inputs := s.inputs.tail, outputs := s.outputs } ∧
      (State.resetOf s.cfg).phase = .idle ∧ (State.resetOf s.cfg).irq = false) ∧
  ∀ (s : State) (v : Nat), s.phase = .idle → s.nextEvent = .rng v → step s = .next { s with inputs := s.inputs.tail }

/-- R200: while `rst` is asserted no bus access, completion or RNG answer takes effect. A bus access has "no defined
response": the model refuses it (log 9). -/
def Obligations.NothingTakesEffectDuringReset : Prop :=
  ∀ s : State, s.rst = true →
    (s.nextEvent = .engine → step s = .next { s with inputs := s.inputs.tail }) ∧
    (∀ v, s.nextEvent = .rng v → step s = .next { s with inputs := s.inputs.tail }) ∧
    ∀ req, s.nextEvent = .bus req → step s = .refused .busDuringReset

/-- The block right after reset meets the invariant. -/
def Obligations.ResetMeetsTheInvariant : Prop := ∀ c : Config, (State.resetOf c).Inv

/-- Every step keeps the invariant (R20, R38, R43, R72, R101, R109, R134, R200): registers keep to NBITS bits; while
busy the snapshot equals the live registers and tag, CMD holds the accepted word, DONE, RFLAG and ERRCODE are 0; only
MRT on an odd n ≥ 5 draws, always in `[2, n − 2]`, never more than k, never after a failing trial; and while `rst` is
asserted everything has its reset value. -/
def Obligations.StepKeepsTheInvariant : Prop := ∀ s t : State, s.Inv → step s = .next t → t.Inv

/-! ### Host programs (R94, R167) -/

/-- R167, with the `WAIT` of R94: each turn of a host in `WAIT` reads STATUS, and the host goes on exactly when the
read shows BUSY = 0. `DECRYPT` on an idle block, with any number of reads while each command executes, runs to its end.
If CRTSQRT fails, the sequence stops before TAGSEL: the block holds CRTSQRT's error and word, and no register has
changed. If it succeeds, TAGSEL runs on its candidates: with a legal tag configuration R[rd] gets the first tagged
candidate without its tag and RFLAG is 1, or ERRCODE is TAG_MISMATCH and R[rd] is unchanged by it. That the test of
ERRCODE looks at the word `WAIT` read last is the model's form (log 15). -/
def Obligations.DecryptProgramWaitsAndStopsOnErrors : Prop :=
  (∀ (p : Platform) (rest : List HostOp), p.block.rst = false → p.program = .waitIdle :: rest →
    p.turn .host = .next
      { block := { p.block with outputs := p.block.outputs ++ [.readResp .okay p.block.statusWord] }
        program := if p.block.busy then .waitIdle :: rest else rest
        lastRead := p.block.statusWord }) ∧
  ∀ (s t : State) (rd rc rp rq rt : RegIdx) (prog : List HostOp) (read : Word) (polls₁ polls₂ : Nat),
    s.rst = false → s.phase = .idle → (∀ i, s.reg i < 2 ^ s.cfg.nbits) → decrypt rd rc rp rq rt = some prog →
    exec (.crtsqrt rt rc rp rq) (s.accept (encode (.crtsqrt rt rc rp rq))) = .next t →
    ∃ p, Platform.run
        ([.host] ++ List.replicate polls₁ .host ++ [.event .engine, .host, .host] ++
          [.host] ++ List.replicate polls₂ .host ++ [.event .engine, .host])
        { block := s, program := prog, lastRead := read } = .next p ∧
      p.program = [] ∧ p.block.phase = .idle ∧
      (t.errcode ≠ .ok → p.block.errcode = t.errcode ∧ p.block.rflag = false ∧
        p.block.cmd = encode (.crtsqrt rt rc rp rq) ∧ ∀ j, p.block.reg j = s.reg j) ∧
      (t.errcode = .ok →
        p.block.cmd = encode (.tagsel rd rt) ∧
        (∀ j, j ∉ rd :: dests (.crtsqrt rt rc rp rq) → p.block.reg j = s.reg j) ∧
        (1 ≤ s.tagw.toNat → s.tagw.toNat ≤ 64 → s.tagw.toNat < s.cfg.nbits → s.tagh.toNat < 2 ^ s.tagw.toNat →
          (∀ j, j < 4 → t.reg (member rt j) % 2 ^ s.tagw.toNat = s.tagh.toNat →
            (∀ k, k < j → t.reg (member rt k) % 2 ^ s.tagw.toNat ≠ s.tagh.toNat) →
            p.block.errcode = .ok ∧ p.block.rflag = true ∧
              p.block.reg rd = t.reg (member rt j) / 2 ^ s.tagw.toNat) ∧
          ((∀ k, k < 4 → t.reg (member rt k) % 2 ^ s.tagw.toNat ≠ s.tagh.toNat) →
            p.block.errcode = .tagMismatch ∧ p.block.rflag = false ∧ p.block.reg rd = t.reg rd)))
end

