-- ==== Sys2Proof/Laws/Arith.lean ====
section
/-! SUPPORT. What the loops of the shared functions compute: `powerMod` (R121), the squarings of `witness` (R131), the
loop of `egcd` (R150), the signed form (R13) and the CRT combination (R164). -/

namespace Sys2Proof.Machine

/-! ### `powerMod` -/

theorem lt_two_pow_bitlen (d : Nat) : d < 2 ^ bitlen d := by
  unfold bitlen
  split
  · simp [*]
  · exact Nat.lt_log2_self

/-- The invariant of the loop of R121: what it returns is congruent to `acc · pw^d`. -/
theorem powerModLoop_eq (n fuel acc pw d : Nat) (h : d < 2 ^ fuel) (ha : acc % n = acc) :
    powerModLoop n fuel acc pw d = acc * pw ^ d % n := by
  induction fuel generalizing acc pw d with
  | zero => simp at h; simp [powerModLoop, h, ha]
  | succ fuel ih =>
    rw [powerModLoop]
    by_cases hd : d = 0
    · simp [hd, ha]
    · rw [if_neg hd, ih _ _ _ (by omega) (by split <;> simp [ha])]
      have hp : (pw * pw % n) ^ (d / 2) ≡ pw ^ (2 * (d / 2)) [MOD n] := by
        rw [pow_mul, pow_two]; exact (Nat.mod_modEq _ _).pow _
      have hd2 := Nat.div_add_mod d 2
      split
      · have e : acc * pw ^ d = acc * pw * pw ^ (2 * (d / 2)) := by
          conv_lhs => rw [show d = 2 * (d / 2) + 1 by omega, pow_succ]
          ring
        rw [e]; exact ((Nat.mod_modEq _ _).mul hp)
      · have e : acc * pw ^ d = acc * pw ^ (2 * (d / 2)) := by
          conv_lhs => rw [show d = 2 * (d / 2) by omega]
        rw [e]; exact hp.mul_left _

/-- R122. -/
theorem powerMod_eq (a d n : Nat) : powerMod a d n = a ^ d % n := by
  rw [powerMod, powerModLoop_eq _ _ _ _ _ (lt_two_pow_bitlen d) (Nat.mod_mod _ _), Nat.mod_mul_mod, one_mul]

/-! ### `witness` -/

/-- The split `m = u · 2^k`, u odd, is found with k iterations to go. -/
theorem splitTwos_eq (fuel m t u k : Nat) (hu : u % 2 = 1) (hm : m = u * 2 ^ k) (hk : k ≤ fuel) :
    splitTwos fuel m t = (u, t + k) := by
  induction fuel generalizing m t k with
  | zero => obtain rfl : k = 0 := by omega
            simp [splitTwos, hm]
  | succ fuel ih =>
    rw [splitTwos]
    cases k with
    | zero => simp only [pow_zero, mul_one] at hm; simp [hm, hu]
    | succ k =>
      have : m = 2 * (u * 2 ^ k) := by rw [hm]; ring
      rw [if_pos (by omega), ih (m / 2) (t + 1) k (by omega) (by omega)]
      congr 1; omega

theorem splitTwos_bitlen (m u k : Nat) (hu : u % 2 = 1) (hm : m = u * 2 ^ k) : splitTwos (bitlen m) m 0 = (u, k) := by
  rw [splitTwos_eq (bitlen m) m 0 u k hu hm, Nat.zero_add]
  have h1 := lt_two_pow_bitlen m
  have h2 : 2 ^ k ≤ m := by rw [hm]; exact Nat.le_mul_of_pos_left _ (by omega)
  exact le_of_lt ((Nat.pow_lt_pow_iff_right (by omega)).1 (lt_of_le_of_lt h2 h1))

theorem witness_eq (n a u t : Nat) (hu : u % 2 = 1) (h : n - 1 = u * 2 ^ t) :
    witness n a = squarings n t (a ^ u % n) := by
  simp only [witness, splitTwos_bitlen _ u t hu h, powerMod_eq]

theorem exists_split (m : Nat) (h : m ≠ 0) : ∃ u t, m = u * 2 ^ t ∧ u % 2 = 1 := by
  obtain ⟨t, u, h1, h2⟩ := Nat.exists_eq_two_pow_mul_odd h
  exact ⟨u, t, by rw [h2, mul_comm], Nat.odd_iff.1 h1⟩

/-- From 1 on, every squaring is 1. -/
theorem squarings_one (n t : Nat) (hn : 2 ≤ n) : squarings n t 1 = true := by
  induction t with
  | zero => rfl
  | succ t ih => rw [squarings, if_neg (by simp), Nat.mod_eq_of_lt (by omega)]; exact ih

/-- The squarings find no evidence exactly when they start at 1 or pass through n − 1. -/
theorem squarings_iff (n t x : Nat) (hn : 2 ≤ n) (hx : x < n) (ht : 0 < t → 3 ≤ n):
    squarings n t x = true ↔ x = 1 ∨ ∃ i, i < t ∧ x ^ 2 ^ i % n = n - 1 := by
  induction t generalizing x with
  | zero => simp [squarings]
  | succ t ih =>
    have hn3 := ht (by omega)
    have hx2 : x * x % n < n := Nat.mod_lt _ (by omega)
    by_cases h1 : x = 1
    · subst h1; simp [squarings_one n _ hn]
    have step : ∀ i, (x * x % n) ^ 2 ^ i % n = x ^ 2 ^ (i + 1) % n := by
      intro i
      rw [← Nat.pow_mod, pow_succ', pow_mul, pow_two]
    rw [squarings]
    by_cases h2 : x = n - 1
    · have : x * x % n = 1 := by
        obtain ⟨m, rfl⟩ : ∃ m, n = m + 2 := ⟨n - 2, by omega⟩
        rw [h2, show (m + 2 - 1) * (m + 2 - 1) = 1 + (m + 2) * m by simp; ring, Nat.add_mul_mod_self_left]
        exact Nat.mod_eq_of_lt (by omega)
      rw [if_neg (by simp [h2]), this]
      simp only [squarings_one n _ hn, true_iff]
      exact .inr ⟨0, by omega, by simp [h2]⟩
    · split
      · rename_i h
        simp only [Bool.false_eq_true, false_iff, not_or, not_exists, not_and]
        refine ⟨h1, fun i hi => ?_⟩
        cases i with
        | zero => rw [pow_zero, pow_one, Nat.mod_eq_of_lt hx]; exact h2
        | succ i => rw [← step, h.1, one_pow, Nat.mod_eq_of_lt (by omega)]; omega
      · rename_i h
        have hne : x * x % n ≠ 1 := fun e => h ⟨e, h1, h2⟩
        rw [ih _ hx2 (fun _ => hn3)]
        constructor
        · rintro (h3 | ⟨i, hi, h3⟩)
          · exact absurd h3 hne
          · exact .inr ⟨i + 1, by omega, by rw [← step]; exact h3⟩
        · rintro (h3 | ⟨i, hi, h3⟩)
          · exact absurd h3 h1
          · cases i with
            | zero => rw [pow_zero, pow_one, Nat.mod_eq_of_lt hx] at h3; exact absurd h3 h2
            | succ i => exact .inr ⟨i, by omega, by rw [step]; exact h3⟩

/-! ### `egcd` -/

/-- With `r1` iterations or more to go the bound of the loop does not matter. -/
theorem egcdLoop_fuel (f f' : Nat) (x y : Bezout) (h : y.g ≤ f) (h' : y.g ≤ f') : egcdLoop f x y = egcdLoop f' x y := by
  induction f generalizing f' x y with
  | zero =>
    have : y.g = 0 := by omega
    cases f' <;> simp [egcdLoop, this]
  | succ f ih =>
    by_cases hy : y.g = 0
    · cases f' <;> simp [egcdLoop, hy]
    · cases f' with
      | zero => omega
      | succ f' =>
        rw [egcdLoop, egcdLoop, if_neg hy, if_neg hy]
        have : x.g - x.g / y.g * y.g < y.g := by
          rw [mul_comm, ← Nat.mod_eq_sub_mul_div]; exact Nat.mod_lt _ (by omega)
        exact ih _ _ _ (by dsimp only; omega) (by dsimp only; omega)

/-- The loop is linear in its coefficients. -/
theorem egcdLoop_linear (f : Nat) (x y : Bezout) :
    egcdLoop f x y =
      { g := (egcdLoop f ⟨x.g, 1, 0⟩ ⟨y.g, 0, 1⟩).g
        s := (egcdLoop f ⟨x.g, 1, 0⟩ ⟨y.g, 0, 1⟩).s * x.s + (egcdLoop f ⟨x.g, 1, 0⟩ ⟨y.g, 0, 1⟩).t * y.s
        t := (egcdLoop f ⟨x.g, 1, 0⟩ ⟨y.g, 0, 1⟩).s * x.t + (egcdLoop f ⟨x.g, 1, 0⟩ ⟨y.g, 0, 1⟩).t * y.t } := by
  induction f generalizing x y with
  | zero => simp [egcdLoop]
  | succ f ih =>
    rw [egcdLoop, egcdLoop]
    dsimp only
    split
    · simp
    · rw [ih y, ih ⟨y.g, 0, 1⟩]
      dsimp only
      congr 1 <;> ring

/-- Induction along Euclid's steps. -/
theorem egcd_induction {P : Nat → Nat → Prop} (h0 : ∀ a, P a 0) (h1 : ∀ a b, 0 < b → P b (a % b) → P a b) (a b : Nat) :
    P a b := by
  induction b using Nat.strong_induction_on generalizing a with
  | _ b ih =>
    rcases Nat.eq_zero_or_pos b with rfl | hb
    · exact h0 a
    · exact h1 a b hb (ih _ (Nat.mod_lt a hb) b)

/-! ### Signed coefficients -/

theorem coefFits_iff (n : Nat) (v : Int) : coefFits n v = true ↔ -(2 ^ (n - 1)) ≤ v ∧ v < 2 ^ (n - 1) := by
  simp [coefFits]

/-- R13: reading back what `s2u` wrote. -/
theorem u2s_s2u (n : Nat) (v : Int) (hn : 1 ≤ n) (h : coefFits n v = true) : u2s n (s2u n v) = v := by
  rw [coefFits_iff] at h
  have h2 : ((2 : Int) ^ n) = 2 * 2 ^ (n - 1) := by rw [← pow_succ']; congr 1; omega
  have hp : (0 : Int) < 2 ^ (n - 1) := by positivity
  have hm : v % 2 ^ n = if 0 ≤ v then v else v + 2 ^ n := by
    split
    · exact Int.emod_eq_of_lt ‹_› (by omega)
    · rw [← Int.add_emod_right]; exact Int.emod_eq_of_lt (by omega) (by omega)
  have ht : ((s2u n v : Nat) : Int) = v % 2 ^ n := Int.toNat_of_nonneg (Int.emod_nonneg _ (by omega))
  have hiff : (2 ^ (n - 1) ≤ s2u n v) ↔ (2 : Int) ^ (n - 1) ≤ (s2u n v : Nat) := by exact_mod_cast Iff.rfl
  unfold u2s
  simp only [hiff, ht, hm]
  split <;> split <;> omega

theorem s2u_lt (n : Nat) (v : Int) : s2u n v < 2 ^ n := by
  have : (v % 2 ^ n) < 2 ^ n := Int.emod_lt_of_pos _ (by positivity)
  have h0 := Int.emod_nonneg v (show (2:Int)^n ≠ 0 by positivity)
  rw [s2u, Int.toNat_lt h0]; exact_mod_cast this

/-! ### CRT -/

/-- R164: for a Bézout pair, the combination is the residue modulo p·q with the two given residues. -/
theorem crtCombine_spec (e : Bezout) (p q mP mQ : Nat) (sg : Int) (hp : 0 < p) (hq : 0 < q)
    (h : e.s * p + e.t * q = 1) :
    crtCombine e p q mP mQ sg < p * q ∧ ((crtCombine e p q mP mQ sg : Nat) : Int) ≡ sg * mP [ZMOD p] ∧
      ((crtCombine e p q mP mQ sg : Nat) : Int) ≡ mQ [ZMOD q] := by
  have hn : (0 : Int) < ((p * q : Nat) : Int) := by exact_mod_cast Nat.mul_pos hp hq
  have h0 := Int.emod_nonneg (e.s * p * mQ + sg * (e.t * q * mP)) hn.ne'
  have h1 := Int.emod_lt_of_pos (e.s * p * mQ + sg * (e.t * q * mP)) hn
  have hc : ((crtCombine e p q mP mQ sg : Nat) : Int) = (e.s * p * mQ + sg * (e.t * q * mP)) % ((p * q : Nat) : Int) :=
    Int.toNat_of_nonneg h0
  have hmod : ((crtCombine e p q mP mQ sg : Nat) : Int) ≡ e.s * p * mQ + sg * (e.t * q * mP) [ZMOD ((p * q : Nat) : Int)] := by
    rw [hc]; exact Int.mod_modEq _ _
  have hmp := hmod.of_dvd (show (p : Int) ∣ ((p * q : Nat) : Int) by push_cast; exact dvd_mul_right _ _)
  have hmq := hmod.of_dvd (show (q : Int) ∣ ((p * q : Nat) : Int) by push_cast; exact dvd_mul_left _ _)
  refine ⟨by rw [← hc] at h1; exact_mod_cast h1, hmp.trans ?_, hmq.trans ?_⟩
  · rw [Int.modEq_iff_dvd]
    exact ⟨e.s * (sg * mP - mQ), by linear_combination sg * mP * (-h)⟩
  · rw [Int.modEq_iff_dvd]
    exact ⟨e.t * (mQ - sg * mP), by linear_combination mQ * (-h)⟩
end Sys2Proof.Machine
end

