-- ==== Sys2Proof/Laws/State.lean ====
section
/-! SUPPORT. The fields of the state after each operation, so that no proof unfolds a record update. -/

namespace Sys2Proof.Machine

/-! ### Port output -/

@[simp] theorem emit_cfg (s : State) (o : Output) : (s.emit o).cfg = s.cfg := rfl
@[simp] theorem emit_rst (s : State) (o : Output) : (s.emit o).rst = s.rst := rfl
@[simp] theorem emit_regs (s : State) (o : Output) : (s.emit o).regs = s.regs := rfl
@[simp] theorem emit_ie (s : State) (o : Output) : (s.emit o).ie = s.ie := rfl
@[simp] theorem emit_lock (s : State) (o : Output) : (s.emit o).lock = s.lock := rfl
@[simp] theorem emit_done (s : State) (o : Output) : (s.emit o).done = s.done := rfl
@[simp] theorem emit_rflag (s : State) (o : Output) : (s.emit o).rflag = s.rflag := rfl
@[simp] theorem emit_busyerr (s : State) (o : Output) : (s.emit o).busyerr = s.busyerr := rfl
@[simp] theorem emit_lockerr (s : State) (o : Output) : (s.emit o).lockerr = s.lockerr := rfl
@[simp] theorem emit_errcode (s : State) (o : Output) : (s.emit o).errcode = s.errcode := rfl
@[simp] theorem emit_cmd (s : State) (o : Output) : (s.emit o).cmd = s.cmd := rfl
@[simp] theorem emit_tagw (s : State) (o : Output) : (s.emit o).tagw = s.tagw := rfl
@[simp] theorem emit_taghLo (s : State) (o : Output) : (s.emit o).taghLo = s.taghLo := rfl
@[simp] theorem emit_taghHi (s : State) (o : Output) : (s.emit o).taghHi = s.taghHi := rfl
@[simp] theorem emit_phase (s : State) (o : Output) : (s.emit o).phase = s.phase := rfl
@[simp] theorem emit_inputs (s : State) (o : Output) : (s.emit o).inputs = s.inputs := rfl
@[simp] theorem emit_outputs (s : State) (o : Output) : (s.emit o).outputs = s.outputs ++ [o] := rfl

/-! ### Taking an event -/

@[simp] theorem pop_cfg (s : State) : (s.pop).cfg = s.cfg := rfl
@[simp] theorem pop_rst (s : State) : (s.pop).rst = s.rst := rfl
@[simp] theorem pop_regs (s : State) : (s.pop).regs = s.regs := rfl
@[simp] theorem pop_ie (s : State) : (s.pop).ie = s.ie := rfl
@[simp] theorem pop_lock (s : State) : (s.pop).lock = s.lock := rfl
@[simp] theorem pop_done (s : State) : (s.pop).done = s.done := rfl
@[simp] theorem pop_rflag (s : State) : (s.pop).rflag = s.rflag := rfl
@[simp] theorem pop_busyerr (s : State) : (s.pop).busyerr = s.busyerr := rfl
@[simp] theorem pop_lockerr (s : State) : (s.pop).lockerr = s.lockerr := rfl
@[simp] theorem pop_errcode (s : State) : (s.pop).errcode = s.errcode := rfl
@[simp] theorem pop_cmd (s : State) : (s.pop).cmd = s.cmd := rfl
@[simp] theorem pop_tagw (s : State) : (s.pop).tagw = s.tagw := rfl
@[simp] theorem pop_taghLo (s : State) : (s.pop).taghLo = s.taghLo := rfl
@[simp] theorem pop_taghHi (s : State) : (s.pop).taghHi = s.taghHi := rfl
@[simp] theorem pop_phase (s : State) : (s.pop).phase = s.phase := rfl
@[simp] theorem pop_inputs (s : State) : (s.pop).inputs = s.inputs.tail := rfl
@[simp] theorem pop_outputs (s : State) : (s.pop).outputs = s.outputs := rfl

/-! ### Acceptance (R100) -/

@[simp] theorem accept_cfg (s : State) (w : Word) : (s.accept w).cfg = s.cfg := rfl
@[simp] theorem accept_rst (s : State) (w : Word) : (s.accept w).rst = s.rst := rfl
@[simp] theorem accept_regs (s : State) (w : Word) : (s.accept w).regs = s.regs := rfl
@[simp] theorem accept_ie (s : State) (w : Word) : (s.accept w).ie = s.ie := rfl
@[simp] theorem accept_lock (s : State) (w : Word) : (s.accept w).lock = s.lock := rfl
@[simp] theorem accept_done (s : State) (w : Word) : (s.accept w).done = false := rfl
@[simp] theorem accept_rflag (s : State) (w : Word) : (s.accept w).rflag = false := rfl
@[simp] theorem accept_busyerr (s : State) (w : Word) : (s.accept w).busyerr = s.busyerr := rfl
@[simp] theorem accept_lockerr (s : State) (w : Word) : (s.accept w).lockerr = s.lockerr := rfl
@[simp] theorem accept_errcode (s : State) (w : Word) : (s.accept w).errcode = .ok := rfl
@[simp] theorem accept_cmd (s : State) (w : Word) : (s.accept w).cmd = w := rfl
@[simp] theorem accept_tagw (s : State) (w : Word) : (s.accept w).tagw = s.tagw := rfl
@[simp] theorem accept_taghLo (s : State) (w : Word) : (s.accept w).taghLo = s.taghLo := rfl
@[simp] theorem accept_taghHi (s : State) (w : Word) : (s.accept w).taghHi = s.taghHi := rfl
@[simp] theorem accept_phase (s : State) (w : Word) : (s.accept w).phase = .busy (s.snapshot w) := rfl
@[simp] theorem accept_inputs (s : State) (w : Word) : (s.accept w).inputs = s.inputs := rfl
@[simp] theorem accept_outputs (s : State) (w : Word) : (s.accept w).outputs = s.outputs := rfl

/-! ### Completion (R104) -/

@[simp] theorem complete_cfg (s : State) (e : ErrCode) (f : Bool) (ws : List (RegIdx × Nat)) : (s.complete e f ws).cfg = s.cfg := rfl
@[simp] theorem complete_rst (s : State) (e : ErrCode) (f : Bool) (ws : List (RegIdx × Nat)) : (s.complete e f ws).rst = s.rst := rfl
@[simp] theorem complete_regs (s : State) (e : ErrCode) (f : Bool) (ws : List (RegIdx × Nat)) : (s.complete e f ws).regs = if e = .ok then commit s.cfg.nbits ws s.regs else s.regs := rfl
@[simp] theorem complete_ie (s : State) (e : ErrCode) (f : Bool) (ws : List (RegIdx × Nat)) : (s.complete e f ws).ie = s.ie := rfl
@[simp] theorem complete_lock (s : State) (e : ErrCode) (f : Bool) (ws : List (RegIdx × Nat)) : (s.complete e f ws).lock = s.lock := rfl
@[simp] theorem complete_done (s : State) (e : ErrCode) (f : Bool) (ws : List (RegIdx × Nat)) : (s.complete e f ws).done = true := rfl
@[simp] theorem complete_rflag (s : State) (e : ErrCode) (f : Bool) (ws : List (RegIdx × Nat)) : (s.complete e f ws).rflag = if e = .ok then f else false := rfl
@[simp] theorem complete_busyerr (s : State) (e : ErrCode) (f : Bool) (ws : List (RegIdx × Nat)) : (s.complete e f ws).busyerr = s.busyerr := rfl
@[simp] theorem complete_lockerr (s : State) (e : ErrCode) (f : Bool) (ws : List (RegIdx × Nat)) : (s.complete e f ws).lockerr = s.lockerr := rfl
@[simp] theorem complete_errcode (s : State) (e : ErrCode) (f : Bool) (ws : List (RegIdx × Nat)) : (s.complete e f ws).errcode = e := rfl
@[simp] theorem complete_cmd (s : State) (e : ErrCode) (f : Bool) (ws : List (RegIdx × Nat)) : (s.complete e f ws).cmd = s.cmd := rfl
@[simp] theorem complete_tagw (s : State) (e : ErrCode) (f : Bool) (ws : List (RegIdx × Nat)) : (s.complete e f ws).tagw = s.tagw := rfl
@[simp] theorem complete_taghLo (s : State) (e : ErrCode) (f : Bool) (ws : List (RegIdx × Nat)) : (s.complete e f ws).taghLo = s.taghLo := rfl
@[simp] theorem complete_taghHi (s : State) (e : ErrCode) (f : Bool) (ws : List (RegIdx × Nat)) : (s.complete e f ws).taghHi = s.taghHi := rfl
@[simp] theorem complete_phase (s : State) (e : ErrCode) (f : Bool) (ws : List (RegIdx × Nat)) : (s.complete e f ws).phase = .idle := rfl
@[simp] theorem complete_inputs (s : State) (e : ErrCode) (f : Bool) (ws : List (RegIdx × Nat)) : (s.complete e f ws).inputs = s.inputs := rfl
@[simp] theorem complete_outputs (s : State) (e : ErrCode) (f : Bool) (ws : List (RegIdx × Nat)) : (s.complete e f ws).outputs = s.outputs := rfl

/-! ### CTRL (R33) -/

@[simp] theorem writeCtrl_cfg (s : State) (v : Word) : (s.writeCtrl v).cfg = s.cfg := rfl
@[simp] theorem writeCtrl_rst (s : State) (v : Word) : (s.writeCtrl v).rst = s.rst := rfl
@[simp] theorem writeCtrl_regs (s : State) (v : Word) : (s.writeCtrl v).regs = s.regs := rfl
@[simp] theorem writeCtrl_ie (s : State) (v : Word) : (s.writeCtrl v).ie = v.getLsbD 0 := rfl
@[simp] theorem writeCtrl_lock (s : State) (v : Word) : (s.writeCtrl v).lock = (s.lock || v.getLsbD 1) := rfl
@[simp] theorem writeCtrl_done (s : State) (v : Word) : (s.writeCtrl v).done = s.done := rfl
@[simp] theorem writeCtrl_rflag (s : State) (v : Word) : (s.writeCtrl v).rflag = s.rflag := rfl
@[simp] theorem writeCtrl_busyerr (s : State) (v : Word) : (s.writeCtrl v).busyerr = s.busyerr := rfl
@[simp] theorem writeCtrl_lockerr (s : State) (v : Word) : (s.writeCtrl v).lockerr = s.lockerr := rfl
@[simp] theorem writeCtrl_errcode (s : State) (v : Word) : (s.writeCtrl v).errcode = s.errcode := rfl
@[simp] theorem writeCtrl_cmd (s : State) (v : Word) : (s.writeCtrl v).cmd = s.cmd := rfl
@[simp] theorem writeCtrl_tagw (s : State) (v : Word) : (s.writeCtrl v).tagw = s.tagw := rfl
@[simp] theorem writeCtrl_taghLo (s : State) (v : Word) : (s.writeCtrl v).taghLo = s.taghLo := rfl
@[simp] theorem writeCtrl_taghHi (s : State) (v : Word) : (s.writeCtrl v).taghHi = s.taghHi := rfl
@[simp] theorem writeCtrl_phase (s : State) (v : Word) : (s.writeCtrl v).phase = s.phase := rfl
@[simp] theorem writeCtrl_inputs (s : State) (v : Word) : (s.writeCtrl v).inputs = s.inputs := rfl
@[simp] theorem writeCtrl_outputs (s : State) (v : Word) : (s.writeCtrl v).outputs = s.outputs := rfl

/-! ### STATUS (R36) -/

@[simp] theorem writeStatus_cfg (s : State) (v : Word) : (s.writeStatus v).cfg = s.cfg := rfl
@[simp] theorem writeStatus_rst (s : State) (v : Word) : (s.writeStatus v).rst = s.rst := rfl
@[simp] theorem writeStatus_regs (s : State) (v : Word) : (s.writeStatus v).regs = s.regs := rfl
@[simp] theorem writeStatus_ie (s : State) (v : Word) : (s.writeStatus v).ie = s.ie := rfl
@[simp] theorem writeStatus_lock (s : State) (v : Word) : (s.writeStatus v).lock = s.lock := rfl
@[simp] theorem writeStatus_done (s : State) (v : Word) : (s.writeStatus v).done = (s.done && !v.getLsbD 1) := rfl
@[simp] theorem writeStatus_rflag (s : State) (v : Word) : (s.writeStatus v).rflag = s.rflag := rfl
@[simp] theorem writeStatus_busyerr (s : State) (v : Word) : (s.writeStatus v).busyerr = (s.busyerr && !v.getLsbD 3) := rfl
@[simp] theorem writeStatus_lockerr (s : State) (v : Word) : (s.writeStatus v).lockerr = (s.lockerr && !v.getLsbD 4) := rfl
@[simp] theorem writeStatus_errcode (s : State) (v : Word) : (s.writeStatus v).errcode = s.errcode := rfl
@[simp] theorem writeStatus_cmd (s : State) (v : Word) : (s.writeStatus v).cmd = s.cmd := rfl
@[simp] theorem writeStatus_tagw (s : State) (v : Word) : (s.writeStatus v).tagw = s.tagw := rfl
@[simp] theorem writeStatus_taghLo (s : State) (v : Word) : (s.writeStatus v).taghLo = s.taghLo := rfl
@[simp] theorem writeStatus_taghHi (s : State) (v : Word) : (s.writeStatus v).taghHi = s.taghHi := rfl
@[simp] theorem writeStatus_phase (s : State) (v : Word) : (s.writeStatus v).phase = s.phase := rfl
@[simp] theorem writeStatus_inputs (s : State) (v : Word) : (s.writeStatus v).inputs = s.inputs := rfl
@[simp] theorem writeStatus_outputs (s : State) (v : Word) : (s.writeStatus v).outputs = s.outputs := rfl

/-! ### Registers -/

@[simp] theorem reg_emit (s : State) (o : Output) (i : RegIdx) : (s.emit o).reg i = s.reg i := rfl
@[simp] theorem reg_pop (s : State) (i : RegIdx) : s.pop.reg i = s.reg i := rfl
@[simp] theorem reg_accept (s : State) (w : Word) (i : RegIdx) : (s.accept w).reg i = s.reg i := rfl
@[simp] theorem reg_writeCtrl (s : State) (v : Word) (i : RegIdx) : (s.writeCtrl v).reg i = s.reg i := rfl
@[simp] theorem reg_writeStatus (s : State) (v : Word) (i : RegIdx) : (s.writeStatus v).reg i = s.reg i := rfl

/-! ### BUSY (R25, R37) -/

theorem busy_of_idle {s : State} (h : s.phase = .idle) : s.busy = false := by simp [State.busy, h]
theorem busy_of_busy {s : State} {b : Busy} (h : s.phase = .busy b) : s.busy = true := by simp [State.busy, h]
theorem phase_of_busy_false {s : State} (h : s.busy = false) : s.phase = .idle := by
  unfold State.busy at h
  split at h
  · assumption
  · cases h
theorem exists_of_busy {s : State} (h : s.busy = true) : ∃ b, s.phase = .busy b := by
  unfold State.busy at h
  split at h
  · cases h
  · exact ⟨_, ‹_›⟩

@[simp] theorem snapshot_word (s : State) (w : Word) : (s.snapshot w).word = w := rfl
@[simp] theorem snapshot_snap (s : State) (w : Word) : (s.snapshot w).snap = s.regs := rfl
@[simp] theorem snapshot_sw (s : State) (w : Word) : (s.snapshot w).sw = s.tagw := rfl
@[simp] theorem snapshot_sh (s : State) (w : Word) : (s.snapshot w).sh = s.tagh := rfl
@[simp] theorem snapshot_draws (s : State) (w : Word) : (s.snapshot w).draws = [] := rfl
@[simp] theorem snapshot_rngReq (s : State) (w : Word) : (s.snapshot w).rngReq = none := rfl

end Sys2Proof.Machine
end

