-- ==== Sys2Proof/Laws/Ops.lean ====
section
/-! SUPPORT. What each shared operation does, said once: register writes, completion, the RNG request, a command body,
the turns of a step. Proofs cite these and do not unfold the operations. -/

namespace Sys2Proof.Machine

/-! ### Registers (R20, R104) -/

theorem getElem_writeReg (n : Nat) (r : Regs) (i j : RegIdx) (v : Nat) :
    (writeReg n r i v)[j] = if j = i then v % 2 ^ n else r[j] := by
  simp only [writeReg, Fin.getElem_fin, Vector.getElem_set]
  by_cases h : j = i
  · simp [h]
  · have : ¬ i.val = j.val := fun e => h (Fin.ext e.symm)
    simp [h, this]

theorem getElem_commit_of_notMem (n : Nat) (ws : List (RegIdx × Nat)) (r : Regs) (j : RegIdx)
    (h : j ∉ ws.map Prod.fst) : (commit n ws r)[j] = r[j] := by
  induction ws generalizing r with
  | nil => rfl
  | cons w ws ih =>
    simp only [List.map_cons, List.mem_cons, not_or] at h
    rw [commit, List.foldl_cons]
    exact (ih _ h.2).trans ((getElem_writeReg ..).trans (if_neg h.1))

theorem getElem_commit_of_mem (n : Nat) (ws : List (RegIdx × Nat)) (r : Regs) (j : RegIdx) (v : Nat)
    (h : (j, v) ∈ ws) (nd : (ws.map Prod.fst).Nodup) : (commit n ws r)[j] = v % 2 ^ n := by
  induction ws generalizing r with
  | nil => cases h
  | cons w ws ih =>
    rw [List.map_cons, List.nodup_cons] at nd
    rw [commit, List.foldl_cons]
    rcases List.mem_cons.1 h with rfl | h
    · exact (getElem_commit_of_notMem n ws _ j nd.1).trans ((getElem_writeReg ..).trans (if_pos rfl))
    · exact ih _ h nd.2

theorem getElem_commit_lt (n : Nat) (ws : List (RegIdx × Nat)) (r : Regs) (hr : ∀ j : RegIdx, r[j] < 2 ^ n) (j : RegIdx) :
    (commit n ws r)[j] < 2 ^ n := by
  induction ws generalizing r with
  | nil => exact hr j
  | cons w ws ih =>
    rw [commit, List.foldl_cons]
    refine ih _ fun k => ?_
    rw [getElem_writeReg]
    split
    · exact Nat.mod_lt _ (by positivity)
    · exact hr k

/-! ### Completion (R104, R105) and the RNG request (R72) -/

theorem execute_busy {s : State} {b : Busy} (h : s.phase = .busy b) (body : Config → Busy → Execution) :
    s.execute body = .next (s.finish (body s.cfg b)) := by simp [State.execute, h]

theorem execute_idle {s : State} (h : s.phase = .idle) (body : Config → Busy → Execution) :
    s.execute body = .fault .noCommand := by simp [State.execute, h]

theorem keepsRest_complete (s : State) (e : ErrCode) (f : Bool) (ws : List (RegIdx × Nat)) :
    KeepsRest s (s.complete e f ws) := by constructor <;> rfl

theorem succeeded_ret (s : State) (f : Bool) (ws : List (RegIdx × Nat)) :
    Succeeded s (s.finish (.ret f ws)) f (ws.map Prod.fst) :=
  { idle := rfl, done := rfl, errcode := rfl, rflag := rfl, rest := keepsRest_complete ..
    others := fun j hj => getElem_commit_of_notMem _ ws s.regs j hj }

theorem reg_ret_of_mem (s : State) (f : Bool) (ws : List (RegIdx × Nat)) (j : RegIdx) (v : Nat) (h : (j, v) ∈ ws)
    (nd : (ws.map Prod.fst).Nodup) : (s.finish (.ret f ws)).reg j = v % 2 ^ s.cfg.nbits :=
  getElem_commit_of_mem _ ws s.regs j v h nd

theorem failed_raise (s : State) {e : ErrCode} (he : e ≠ .ok) : Failed s (s.finish (.raise e)) e :=
  { idle := rfl, done := rfl, errcode := rfl, rest := keepsRest_complete ..
    rflag := by simp [State.finish, he]
    regs := fun j => by simp [State.finish, State.reg, he] }

theorem request_of_none {s : State} {b : Busy} (h : s.phase = .busy b) (hr : b.rngReq = none) (r : RngReq) :
    s.request r = { s with phase := .busy { b with rngReq := some r }, outputs := s.outputs ++ [.rngRequest r] } := by
  simp [State.request, h, hr, State.emit]

theorem request_of_some {s : State} {b : Busy} (h : s.phase = .busy b) (hr : b.rngReq ≠ none) (r : RngReq) :
    s.request r = s := by
  cases hb : b.rngReq with
  | none => exact absurd hb hr
  | some _ => simp [State.request, h, hb]

/-! ### Command bodies (R103) -/

/-- The body of each command: every meaning is one body run by `execute`. -/
def bodyOf (i : Instr) (c : Config) (b : Busy) : Execution :=
  match i with
  | .nop => .ret false []
  | .modexp rd rs1 rs2 rs3 => modexpBody rd (b.src rs1) (b.src rs2) (b.src rs3)
  | .mrw rs1 rs2 => mrwBody (b.src rs1) (b.src rs2)
  | .mrt rs1 imm => mrtBody (b.src rs1) imm.toNat b.draws
  | .egcd rd rs1 rs2 => if !groupFits rd 3 then .raise .illegalField else egcdBody c.nbits rd (egcd (b.src rs1) (b.src rs2))
  | .crtsqrt rd rs1 rs2 rs3 => if !groupFits rd 4 then .raise .illegalField
    else crtsqrtBody c.nbits rd (b.src rs1) (b.src rs2) (b.src rs3)
  | .tagsel rd rs1 => if !groupFits rs1 4 then .raise .illegalField
    else tagselBody c.nbits rd b.sw.toNat b.sh.toNat (b.candidates rs1)

theorem exec_eq (i : Instr) (s : State) : exec i s = s.execute (bodyOf i) := by cases i <;> rfl

/-- `exec` stops on an idle engine and otherwise ends the command body on what BUSY holds. -/
theorem exec_cases (i : Instr) (s : State) :
    (s.phase = .idle ∧ exec i s = .fault .noCommand) ∨
      ∃ b, s.phase = .busy b ∧ exec i s = .next (s.finish (bodyOf i s.cfg b)) := by
  rw [exec_eq]
  cases h : s.phase with
  | idle => exact .inl ⟨rfl, execute_idle h _⟩
  | busy b => exact .inr ⟨b, rfl, execute_busy h _⟩

theorem exec_busy {s : State} {b : Busy} (h : s.phase = .busy b) (i : Instr) :
    exec i s = .next (s.finish (bodyOf i s.cfg b)) := by rw [exec_eq, execute_busy h]

theorem exec_inv {i : Instr} {s t : State} (h : exec i s = .next t) :
    ∃ b, s.phase = .busy b ∧ t = s.finish (bodyOf i s.cfg b) := by
  rcases exec_cases i s with ⟨_, h'⟩ | ⟨b, hb, h'⟩
  · rw [h'] at h; cases h
  · rw [h'] at h; cases h; exact ⟨b, hb, rfl⟩

/-! ### Turns of a step (R67) -/

theorem step_of_engine {s : State} (h : s.nextEvent = .engine) : step s = s.pop.engineTurn exec := by simp [step, h]
theorem step_of_bus {s : State} {req : BusReq} (h : s.nextEvent = .bus req) : step s = s.pop.hostTurn req := by
  simp [step, h]
theorem step_of_rng {s : State} {v : Nat} (h : s.nextEvent = .rng v) : step s = .next (s.pop.rngTurn v) := by
  simp [step, h]
theorem step_of_rst {s : State} {l : Bool} (h : s.nextEvent = .rst l) : step s = .next (s.pop.driveRst l) := by
  simp [step, h]

theorem engineTurn_busy {s : State} {b : Busy} (hr : s.rst = false) (h : s.phase = .busy b)
    (run : Instr → State → Host.Outcome State Fault Refusal) :
    s.engineTurn run = match decode b.word with
      | .command i => run i s
      | .illegalOpcode => .next (s.finish (.raise .illegalOpcode))
      | .illegalField => .next (s.finish (.raise .illegalField)) := by
  cases hd : decode b.word <;> simp [State.engineTurn, State.engineWork, hr, h, hd]

/-! ### What a command body can end with -/

/-- A body ends with an error, with its flag and writes to the command's destinations, or (MRT alone) with a draw. -/
theorem bodyOf_cases (i : Instr) (c : Config) (b : Busy) :
    (∃ e, bodyOf i c b = .raise e ∧ e ≠ .ok) ∨ (∃ f ws, bodyOf i c b = .ret f ws ∧ ws.map Prod.fst = dests i) ∨
      ∃ n k r, i = .mrt n k ∧ bodyOf i c b = .draw r := by
  cases i with
  | nop => exact .inr (.inl ⟨_, _, rfl, rfl⟩)
  | modexp rd a d n =>
    simp only [bodyOf, modexpBody, dests]
    split
    · exact .inl ⟨_, rfl, by simp⟩
    · exact .inr (.inl ⟨_, _, rfl, rfl⟩)
  | mrw n a =>
    simp only [bodyOf, mrwBody, dests]
    split
    · exact .inl ⟨_, rfl, by simp⟩
    · exact .inr (.inl ⟨_, _, rfl, rfl⟩)
  | mrt n k =>
    have : ∀ m j ds, (∃ f, mrtTrials m j ds = .ret f []) ∨ mrtTrials m j ds = .draw { lo := 2, hi := m - 2 } := by
      intro m j ds
      induction j generalizing ds with
      | zero => exact .inl ⟨_, rfl⟩
      | succ j ih =>
        cases ds with
        | nil => exact .inr rfl
        | cons a ds =>
          simp only [mrtTrials]
          split
          · exact ih ds
          · exact .inl ⟨_, rfl⟩
    simp only [bodyOf, mrtBody, dests]
    split
    · exact .inr (.inl ⟨_, _, rfl, rfl⟩)
    split
    · exact .inr (.inl ⟨_, _, rfl, rfl⟩)
    split
    · exact .inr (.inl ⟨_, _, rfl, rfl⟩)
    rcases this (b.src n) k.toNat b.draws with ⟨f, h⟩ | h
    · exact .inr (.inl ⟨_, _, h, rfl⟩)
    · exact .inr (.inr ⟨_, _, _, rfl, h⟩)
  | egcd rd a d =>
    simp only [bodyOf, egcdBody, dests]
    split
    · exact .inl ⟨_, rfl, by simp⟩
    split
    · exact .inl ⟨_, rfl, by simp⟩
    split
    · exact .inl ⟨_, rfl, by simp⟩
    exact .inr (.inl ⟨_, _, rfl, rfl⟩)
  | crtsqrt rd a p q =>
    simp only [bodyOf, crtsqrtBody, dests]
    repeat' split
    all_goals first
      | exact .inl ⟨_, rfl, by simp⟩
      | exact .inr (.inl ⟨_, _, rfl, rfl⟩)
  | tagsel rd a =>
    have : ∀ w h cs, (∃ v, tagScan rd w h cs = .ret true [(rd, v)]) ∨ tagScan rd w h cs = .raise .tagMismatch := by
      intro w h cs
      induction cs with
      | nil => exact .inr rfl
      | cons c cs ih =>
        simp only [tagScan]
        split
        · exact .inl ⟨_, rfl⟩
        · exact ih
    simp only [bodyOf, tagselBody, dests]
    split
    · exact .inl ⟨_, rfl, by simp⟩
    split
    · rcases this b.sw.toNat b.sh.toNat (b.candidates a) with ⟨v, h⟩ | h
      · exact .inr (.inl ⟨_, _, h, rfl⟩)
      · exact .inl ⟨_, h, by simp⟩
    · exact .inl ⟨_, rfl, by simp⟩

/-- Everything a next state of `exec` can be: a failure, a success on the command's destinations, or (MRT alone) the
state with a request placed or waiting for one. -/
theorem exec_next_cases {i : Instr} {s t : State} (h : exec i s = .next t) :
    (∃ e, e ≠ .ok ∧ Failed s t e) ∨ (∃ f, Succeeded s t f (dests i)) ∨
      ∃ n k b r, i = .mrt n k ∧ s.phase = .busy b ∧ bodyOf i s.cfg b = .draw r ∧
        (b.rngReq ≠ none ∧ t = s ∨
          b.rngReq = none ∧
            t = { s with phase := .busy { b with rngReq := some r }, outputs := s.outputs ++ [.rngRequest r] }) := by
  obtain ⟨b, hb, rfl⟩ := exec_inv h
  rcases bodyOf_cases i s.cfg b with ⟨e, h1, h2⟩ | ⟨f, ws, h1, h2⟩ | ⟨n, k, r, rfl, h1⟩
  · rw [h1]; exact .inl ⟨e, h2, failed_raise _ h2⟩
  · rw [h1, ← h2]; exact .inr (.inl ⟨f, succeeded_ret ..⟩)
  · refine .inr (.inr ⟨n, k, b, r, rfl, hb, h1, ?_⟩)
    rw [h1]
    by_cases hr : b.rngReq = none
    · exact .inr ⟨hr, request_of_none hb hr r⟩
    · exact .inl ⟨hr, request_of_some hb hr r⟩

end Sys2Proof.Machine
end

