-- ==== Sys2Proof/Laws/Bus.lean ====
section
/-! SUPPORT. What a bus access does, said once: where a write goes, what a read depends on, and limbs (R54 to R62). -/

namespace Sys2Proof.Machine

theorem offset_toNat (n : Nat) (h : n < 0x4000) : (BitVec.ofNat 14 n).toNat = n := by
  rw [BitVec.toNat_ofNat]; omega

/-! ### What a bus turn does (R54, R55, R60) -/

theorem accessOk_iff (off : Offset) (size : AccessSize) : accessOk off size = true ↔ size = .word ∧ off.toNat % 4 = 0 := by
  simp [accessOk]

theorem hostTurn_read {s : State} (hr : s.rst = false) (off : Offset) (size : AccessSize) :
    s.hostTurn (.read off size) =
      .next (s.emit (if accessOk off size then .readResp .okay (s.windowWord off) else .readResp .slverr 0)) := by
  simp only [State.hostTurn, hr, Bool.false_eq_true, if_false, State.busAccess, State.memRead]
  split <;> rfl

theorem hostTurn_write {s : State} (hr : s.rst = false) (off : Offset) (size : AccessSize) (v : Word) :
    s.hostTurn (.write off size v) =
      .next (if accessOk off size then (s.storeWord off v).emit (.writeResp .okay) else s.emit (.writeResp .slverr)) := by
  simp only [State.hostTurn, hr, Bool.false_eq_true, if_false, State.busAccess, State.memWrite]
  split <;> rfl

/-- An accepted write as a step. -/
theorem step_write {s : State} {off : Offset} {v : Word} (hr : s.rst = false)
    (he : s.nextEvent = .bus (.write off .word v)) (ha : off.toNat % 4 = 0) :
    step s = .next ((s.pop.storeWord off v).emit (.writeResp .okay)) := by
  rw [step_of_bus he, hostTurn_write (s := s.pop) hr, if_pos ((accessOk_iff _ _).2 ⟨rfl, ha⟩)]

/-- One bit of a bus word, as a number. -/
theorem getLsbD_eq (v : Word) (i : Nat) : v.getLsbD i = decide (v.toNat / 2 ^ i % 2 = 1) := by
  rw [BitVec.getLsbD, Nat.testBit_eq_decide_div_mod_eq]

/-! ### Where a write goes (R55, R56) -/

@[simp] theorem storeWord_ctrl (s : State) (v : Word) : s.storeWord 0x008 v = s.writeCtrl v := rfl
@[simp] theorem storeWord_status (s : State) (v : Word) : s.storeWord 0x00C v = s.writeStatus v := rfl
@[simp] theorem storeWord_cmd (s : State) (v : Word) : s.storeWord 0x010 v = s.writeCmd v := rfl
@[simp] theorem storeWord_tagw (s : State) (v : Word) :
    s.storeWord 0x014 v = s.writeTag { s with tagw := v.extractLsb' 0 8 } := rfl
@[simp] theorem storeWord_taghLo (s : State) (v : Word) : s.storeWord 0x018 v = s.writeTag { s with taghLo := v } := rfl
@[simp] theorem storeWord_taghHi (s : State) (v : Word) : s.storeWord 0x01C v = s.writeTag { s with taghHi := v } := rfl

theorem inWindow_iff (off : Offset) : inWindow off = true ↔ 0x1000 ≤ off.toNat ∧ off.toNat ≤ 0x2FFF := by
  simp [inWindow]

theorem storeWord_window (s : State) (off : Offset) (v : Word) (h : inWindow off = true) :
    s.storeWord off v = s.limbWrite off v := by rw [State.storeWord, if_pos h]

/-- Everything a write can do, by the register it goes to. -/
theorem storeWord_cases (s : State) (off : Offset) (v : Word) :
    (inWindow off = true ∧ s.storeWord off v = s.limbWrite off v) ∨
    (off = 0x008 ∧ s.storeWord off v = s.writeCtrl v) ∨
    (off = 0x00C ∧ s.storeWord off v = s.writeStatus v) ∨
    (off = 0x010 ∧ s.storeWord off v = s.writeCmd v) ∨
    (off = 0x014 ∧ s.storeWord off v = s.writeTag { s with tagw := v.extractLsb' 0 8 }) ∨
    (off = 0x018 ∧ s.storeWord off v = s.writeTag { s with taghLo := v }) ∨
    (off = 0x01C ∧ s.storeWord off v = s.writeTag { s with taghHi := v }) ∨
    (inWindow off = false ∧ off ≠ 0x008 ∧ off ≠ 0x00C ∧ off ≠ 0x010 ∧ off ≠ 0x014 ∧ off ≠ 0x018 ∧ off ≠ 0x01C ∧
      s.storeWord off v = s) := by
  by_cases h : inWindow off = true
  · exact .inl ⟨h, storeWord_window s off v h⟩
  · have e : ∀ n : Offset, off.toNat = n.toNat → off = n := fun n h => BitVec.eq_of_toNat_eq h
    by_cases h1 : off = 0x008
    · subst h1; exact .inr (.inl ⟨rfl, rfl⟩)
    by_cases h2 : off = 0x00C
    · subst h2; exact .inr (.inr (.inl ⟨rfl, rfl⟩))
    by_cases h3 : off = 0x010
    · subst h3; exact .inr (.inr (.inr (.inl ⟨rfl, rfl⟩)))
    by_cases h4 : off = 0x014
    · subst h4; exact .inr (.inr (.inr (.inr (.inl ⟨rfl, rfl⟩))))
    by_cases h5 : off = 0x018
    · subst h5; exact .inr (.inr (.inr (.inr (.inr (.inl ⟨rfl, rfl⟩)))))
    by_cases h6 : off = 0x01C
    · subst h6; exact .inr (.inr (.inr (.inr (.inr (.inr (.inl ⟨rfl, rfl⟩))))))
    refine .inr (.inr (.inr (.inr (.inr (.inr (.inr ⟨by simpa using h, h1, h2, h3, h4, h5, h6, ?_⟩))))))
    rw [State.storeWord, if_neg h]
    split
    · exact absurd (e 0x008 (by assumption)) h1
    · exact absurd (e 0x00C (by assumption)) h2
    · exact absurd (e 0x010 (by assumption)) h3
    · exact absurd (e 0x014 (by assumption)) h4
    · exact absurd (e 0x018 (by assumption)) h5
    · exact absurd (e 0x01C (by assumption)) h6
    · rfl

theorem writeCmd_idle {s : State} (h : s.phase = .idle) (v : Word) : s.writeCmd v = s.accept v := by
  simp [State.writeCmd, busy_of_idle h]
theorem writeCmd_busy {s : State} {b : Busy} (h : s.phase = .busy b) (v : Word) :
    s.writeCmd v = { s with busyerr := true } := by simp [State.writeCmd, busy_of_busy h]
theorem writeTag_stored {s : State} (h1 : s.busy = false) (h2 : s.lock = false) (t : State) : s.writeTag t = t := by
  simp [State.writeTag, h1, h2]
theorem writeTag_dropped {s : State} (h : s.busy = true ∨ s.lock = true) (t : State) :
    s.writeTag t = { s with busyerr := s.busyerr || s.busy, lockerr := s.lockerr || s.lock } := by
  have : (s.busy || s.lock) = true := by simpa using h
  simp [State.writeTag, this]
theorem limbWrite_busy {s : State} {b : Busy} (h : s.phase = .busy b) (off : Offset) (v : Word) :
    s.limbWrite off v = { s with busyerr := true } := by simp [State.limbWrite, busy_of_busy h]
theorem limbWrite_idle {s : State} (h : s.phase = .idle) (off : Offset) (v : Word) (hw : winLimb off < s.cfg.nwords) :
    s.limbWrite off v =
      { s with regs := writeReg s.cfg.nbits s.regs (winReg off) (setLimb (s.reg (winReg off)) (winLimb off) v) } := by
  simp [State.limbWrite, busy_of_idle h, hw]
theorem limbWrite_past {s : State} (h : s.phase = .idle) (off : Offset) (v : Word) (hw : s.cfg.nwords ≤ winLimb off) :
    s.limbWrite off v = s := by
  simp [State.limbWrite, busy_of_idle h, Nat.not_lt.2 hw]

/-! ### The sticky bits (R40, R41) -/

theorem limbWrite_sticky (s : State) (off : Offset) (v : Word) :
    (s.limbWrite off v).busyerr = (s.busyerr || s.busy) ∧ (s.limbWrite off v).lockerr = s.lockerr := by
  unfold State.limbWrite
  split
  · simp [*]
  · split <;> simp [*]

theorem writeCmd_sticky (s : State) (v : Word) :
    (s.writeCmd v).busyerr = (s.busyerr || s.busy) ∧ (s.writeCmd v).lockerr = s.lockerr := by
  unfold State.writeCmd
  split <;> simp [*]

theorem writeTag_sticky (s stored : State) (h1 : stored.busyerr = s.busyerr) (h2 : stored.lockerr = s.lockerr) :
    (s.writeTag stored).busyerr = (s.busyerr || s.busy) ∧ (s.writeTag stored).lockerr = (s.lockerr || s.lock) := by
  unfold State.writeTag
  split
  · exact ⟨rfl, rfl⟩
  · rename_i h
    rw [Bool.not_eq_true, Bool.or_eq_false_iff] at h
    simp [h1, h2, h.1, h.2]

/-! ### What a read reads (R54) -/

/-- A word of the window depends only on the registers it shows. -/
theorem windowWord_congr {s t : State} (off : Offset) (hcfg : t.cfg = s.cfg) (hctrl : t.ctrlWord = s.ctrlWord)
    (hcmd : t.cmd = s.cmd) (htagw : t.tagw = s.tagw) (hlo : t.taghLo = s.taghLo) (hhi : t.taghHi = s.taghHi)
    (hst : off.toNat = 0x00C → t.statusWord = s.statusWord)
    (hreg : inWindow off = true → t.reg (winReg off) = s.reg (winReg off)) : t.windowWord off = s.windowWord off := by
  unfold State.windowWord
  split
  · rename_i h
    simp only [State.limbRead, hcfg, hreg h]
  · split
    · rfl
    · rw [hcfg]
    · exact hctrl
    · exact hst (by assumption)
    · exact hcmd
    · rw [State.tagwWord, htagw]; rfl
    · exact hlo
    · exact hhi
    · rfl

/-- Limb w of R[r] in the window (R57). -/
theorem limbOffset_window (r : RegIdx) (w : Nat) (hw : w < 128) :
    inWindow (BitVec.ofNat 14 (0x1000 + 0x200 * r.val + 4 * w)) = true ∧
      winReg (BitVec.ofNat 14 (0x1000 + 0x200 * r.val + 4 * w)) = r ∧
      winLimb (BitVec.ofNat 14 (0x1000 + 0x200 * r.val + 4 * w)) = w := by
  have e := offset_toNat (0x1000 + 0x200 * r.val + 4 * w) (by omega)
  refine ⟨?_, ?_, ?_⟩
  · rw [inWindow_iff, e]; omega
  · apply Fin.ext; rw [winReg, e, Fin.val_ofNat]; omega
  · rw [winLimb, e]; omega

/-! ### Limbs (R58, R62) -/

theorem limb_toNat (v w : Nat) : (limb v w).toNat = v / 2 ^ (32 * w) % 2 ^ 32 := by rw [limb, BitVec.toNat_ofNat]

theorem append_lt (a x p q : Nat) (ha : a < p) (hx : x < q) : p * x + a < p * q := by
  calc p * x + a < p * x + p := by omega
    _ = p * (x + 1) := by ring
    _ ≤ p * q := Nat.mul_le_mul_left _ hx

theorem setLimb_low (v w : Nat) (x : Word) :
    2 ^ (32 * w) * x.toNat + v % 2 ^ (32 * w) < 2 ^ (32 * (w + 1)) := by
  rw [show 32 * (w + 1) = 32 * w + 32 by ring, pow_add]
  exact append_lt _ _ _ _ (Nat.mod_lt _ (Nat.two_pow_pos _)) x.isLt

/-- The bits of a value with one limb replaced. -/
theorem testBit_setLimb (v w j : Nat) (x : Word) :
    (setLimb v w x).testBit j =
      if 32 * w ≤ j ∧ j < 32 * (w + 1) then x.toNat.testBit (j - 32 * w) else v.testBit j := by
  have e : setLimb v w x =
      2 ^ (32 * (w + 1)) * (v / 2 ^ (32 * (w + 1))) + (2 ^ (32 * w) * x.toNat + v % 2 ^ (32 * w)) := by
    rw [setLimb]; ring
  rw [e, Nat.testBit_two_pow_mul_add _ (setLimb_low v w x),
    Nat.testBit_two_pow_mul_add _ (Nat.mod_lt v (Nat.two_pow_pos (32 * w)))]
  by_cases h1 : j < 32 * (w + 1)
  · rw [if_pos h1]
    by_cases h2 : j < 32 * w
    · rw [if_pos h2, if_neg (by omega), Nat.testBit_mod_two_pow, decide_eq_true h2, Bool.true_and]
    · rw [if_neg h2, if_pos ⟨by omega, h1⟩]
  · rw [if_neg h1, if_neg (by omega), Nat.testBit_div_two_pow, Nat.sub_add_cancel (by omega)]

/-- Replacing limb w: the limb read back is the new one, the others as before. -/
theorem limb_setLimb (v w k : Nat) (x : Word) :
    setLimb v w x / 2 ^ (32 * k) % 2 ^ 32 = if k = w then x.toNat else v / 2 ^ (32 * k) % 2 ^ 32 := by
  apply Nat.eq_of_testBit_eq
  intro i
  rw [Nat.testBit_mod_two_pow, Nat.testBit_div_two_pow, testBit_setLimb]
  by_cases hi : i < 32
  · rw [decide_eq_true hi, Bool.true_and]
    by_cases hk : k = w
    · rw [if_pos (by omega), if_pos hk]; congr 1; omega
    · rw [if_neg (by omega), if_neg hk, Nat.testBit_mod_two_pow, Nat.testBit_div_two_pow, decide_eq_true hi, Bool.true_and]
  · rw [decide_eq_false hi, Bool.false_and]
    split
    · exact (Nat.testBit_lt_two_pow (lt_of_lt_of_le x.isLt (Nat.pow_le_pow_right (by omega) (by omega)))).symm
    · rw [Nat.testBit_mod_two_pow, decide_eq_false hi, Bool.false_and]

/-- A register keeps to its NBITS bits. -/
theorem setLimb_lt (v w n : Nat) (x : Word) (hw : w < n) (hv : v < 2 ^ (32 * n)) : setLimb v w x < 2 ^ (32 * n) := by
  apply Nat.lt_pow_two_of_testBit
  intro i hi
  rw [testBit_setLimb, if_neg (by omega)]
  exact Nat.testBit_lt_two_pow (lt_of_lt_of_le hv (Nat.pow_le_pow_right (by omega) hi))

/-- A value is its limbs (R62). -/
theorem eq_of_limbs (n a b : Nat) (ha : a < 2 ^ (32 * n)) (hb : b < 2 ^ (32 * n))
    (h : ∀ k, k < n → a / 2 ^ (32 * k) % 2 ^ 32 = b / 2 ^ (32 * k) % 2 ^ 32) : a = b := by
  apply Nat.eq_of_testBit_eq
  intro i
  by_cases hi : i < 32 * n
  · have := congrArg (fun x => x.testBit (i % 32)) (h (i / 32) (by omega))
    simp only [Nat.testBit_mod_two_pow, Nat.testBit_div_two_pow] at this
    have e : i % 32 + 32 * (i / 32) = i := by omega
    rw [e] at this
    simpa [show i % 32 < 32 by omega] using this
  · rw [Nat.testBit_lt_two_pow (lt_of_lt_of_le ha (Nat.pow_le_pow_right (by omega) (by omega))),
      Nat.testBit_lt_two_pow (lt_of_lt_of_le hb (Nat.pow_le_pow_right (by omega) (by omega)))]
end Sys2Proof.Machine
end

