-- ==== Sys2Proof/Laws/Decode.lean ====
section
/-! SUPPORT. The decoder and the encoder field by field: masks as ranges of bits, packing and reading back, and what
each answer of the decoder means. -/

namespace Sys2Proof

/-- A mask of one high field and one low field keeps exactly those fields. -/
theorem and_mask (n a b c : Nat) (h : c ≤ a) :
    n &&& ((2 ^ b - 1) * 2 ^ a + (2 ^ c - 1)) = n / 2 ^ a % 2 ^ b * 2 ^ a + n % 2 ^ c := by
  have hc : 2 ^ c - 1 < 2 ^ a := by
    have := Nat.pow_le_pow_right (n := 2) (by omega) h
    have := Nat.two_pow_pos c
    omega
  have hm : n % 2 ^ c < 2 ^ a := lt_of_lt_of_le (Nat.mod_lt _ (by positivity)) (Nat.pow_le_pow_right (by omega) h)
  apply Nat.eq_of_testBit_eq
  intro i
  rw [Nat.testBit_and, mul_comm, mul_comm (n / 2 ^ a % 2 ^ b), Nat.testBit_two_pow_mul_add _ hc, Nat.testBit_two_pow_mul_add _ hm]
  by_cases hi : i < a
  · simp only [hi, if_true, Nat.testBit_mod_two_pow, Nat.testBit_two_pow_sub_one]
    rw [Bool.and_comm]
  · simp only [hi, if_false, Nat.testBit_mod_two_pow, Nat.testBit_two_pow_sub_one, Nat.testBit_div_two_pow]
    rw [Bool.and_comm, Nat.sub_add_cancel (by omega)]

/-- Each row of R86 as ranges of bits: the opcode, and every must-be-zero field 0. -/
theorem mask_iff (w : Word) (op : Opcode) : w &&& op.mask = op.pattern ↔ opcField w = op.number ∧
    match op with
    | .nop => w.toNat / 2 ^ 8 = 0
    | .modexp => w.toNat / 2 ^ 24 = 0
    | .mrw => w.toNat / 2 ^ 8 % 2 ^ 4 = 0 ∧ w.toNat / 2 ^ 20 = 0
    | .mrt => w.toNat / 2 ^ 8 % 2 ^ 4 = 0 ∧ w.toNat / 2 ^ 16 % 2 ^ 8 = 0
    | .egcd => w.toNat / 2 ^ 20 = 0
    | .crtsqrt => w.toNat / 2 ^ 24 = 0
    | .tagsel => w.toNat / 2 ^ 16 = 0 := by
  have hw := w.isLt
  have key : ∀ a b c : Nat, c ≤ a → op.mask.toNat = (2 ^ b - 1) * 2 ^ a + (2 ^ c - 1) →
      (w &&& op.mask = op.pattern ↔ w.toNat / 2 ^ a % 2 ^ b * 2 ^ a + w.toNat % 2 ^ c = op.pattern.toNat) := by
    intro a b c h e
    rw [← BitVec.toNat_inj, BitVec.toNat_and, e, and_mask _ _ _ _ h]
  cases op
  · rw [key 8 24 8 (by omega) (by decide)]
    simp only [opcField, slice, Opcode.number, Opcode.pattern, BitVec.ofNat_eq_ofNat, BitVec.toNat_ofNat]
    omega
  · rw [key 24 8 8 (by omega) (by decide)]
    simp only [opcField, slice, Opcode.number, Opcode.pattern, BitVec.ofNat_eq_ofNat, BitVec.toNat_ofNat]
    omega
  · rw [key 20 12 12 (by omega) (by decide)]
    simp only [opcField, slice, Opcode.number, Opcode.pattern, BitVec.ofNat_eq_ofNat, BitVec.toNat_ofNat]
    omega
  · rw [key 16 8 12 (by omega) (by decide)]
    simp only [opcField, slice, Opcode.number, Opcode.pattern, BitVec.ofNat_eq_ofNat, BitVec.toNat_ofNat]
    omega
  · rw [key 20 12 8 (by omega) (by decide)]
    simp only [opcField, slice, Opcode.number, Opcode.pattern, BitVec.ofNat_eq_ofNat, BitVec.toNat_ofNat]
    omega
  · rw [key 24 8 8 (by omega) (by decide)]
    simp only [opcField, slice, Opcode.number, Opcode.pattern, BitVec.ofNat_eq_ofNat, BitVec.toNat_ofNat]
    omega
  · rw [key 16 16 8 (by omega) (by decide)]
    simp only [opcField, slice, Opcode.number, Opcode.pattern, BitVec.ofNat_eq_ofNat, BitVec.toNat_ofNat]
    omega

theorem Opcode.number_lt (op : Opcode) : op.number < 7 := by cases op <;> decide

theorem toNat_pack (op : Opcode) (rd rs1 rs2 rs3 : RegIdx) (imm : BitVec 8) :
    (pack op rd rs1 rs2 rs3 imm).toNat =
      imm.toNat * 2 ^ 24 + rs3.val * 2 ^ 20 + rs2.val * 2 ^ 16 + rs1.val * 2 ^ 12 + rd.val * 2 ^ 8 + op.number := by
  have := op.number_lt
  have := imm.isLt
  rw [pack, BitVec.toNat_ofNat, Nat.mod_eq_of_lt]
  omega

theorem Opcode.ofNumber_eq_some (n : Nat) (op : Opcode) : Opcode.ofNumber n = some op ↔ n = op.number := by
  constructor
  · intro h
    unfold Opcode.ofNumber at h
    split at h <;> first | (cases h; rfl) | cases h
  · rintro rfl
    cases op <;> rfl

theorem Opcode.ofNumber_eq_none (n : Nat) : Opcode.ofNumber n = none ↔ 7 ≤ n := by
  constructor
  · intro h
    by_contra hn
    interval_cases n <;> cases h
  · intro h
    unfold Opcode.ofNumber
    split <;> first | omega | rfl

section
variable (op : Opcode) (rd rs1 rs2 rs3 : RegIdx) (imm : BitVec 8)
@[simp] theorem opcField_pack : opcField (pack op rd rs1 rs2 rs3 imm) = op.number := by
  have := op.number_lt
  rw [opcField, slice, toNat_pack]; omega
@[simp] theorem rdField_pack : rdField (pack op rd rs1 rs2 rs3 imm) = rd := by
  have := op.number_lt
  apply Fin.ext; rw [rdField, regField, Fin.val_ofNat, slice, toNat_pack]; omega
@[simp] theorem rs1Field_pack : rs1Field (pack op rd rs1 rs2 rs3 imm) = rs1 := by
  have := op.number_lt
  apply Fin.ext; rw [rs1Field, regField, Fin.val_ofNat, slice, toNat_pack]; omega
@[simp] theorem rs2Field_pack : rs2Field (pack op rd rs1 rs2 rs3 imm) = rs2 := by
  have := op.number_lt
  apply Fin.ext; rw [rs2Field, regField, Fin.val_ofNat, slice, toNat_pack]; omega
@[simp] theorem rs3Field_pack : rs3Field (pack op rd rs1 rs2 rs3 imm) = rs3 := by
  have := op.number_lt
  apply Fin.ext; rw [rs3Field, regField, Fin.val_ofNat, slice, toNat_pack]; omega
@[simp] theorem immField_pack : immField (pack op rd rs1 rs2 rs3 imm) = imm := by
  have := op.number_lt
  have := imm.isLt
  rw [← BitVec.toNat_inj, immField, BitVec.toNat_ofNat, slice, toNat_pack]; omega
end

/-- A word is the packing of its own fields. -/
theorem pack_fields (op : Opcode) (w : Word) (h : opcField w = op.number) :
    pack op (rdField w) (rs1Field w) (rs2Field w) (rs3Field w) (immField w) = w := by
  have := w.isLt
  rw [← BitVec.toNat_inj, toNat_pack, ← h]
  simp only [opcField, rdField, rs1Field, rs2Field, rs3Field, immField, regField, slice, Fin.val_ofNat, BitVec.toNat_ofNat]
  omega

/-- What it means that a word is a command (R87). -/
theorem decode_eq_command (w : Word) (i : Instr) :
    decode w = .command i ↔
      ∃ op : Opcode, opcField w = op.number ∧ w &&& op.mask = op.pattern ∧ i = op.assemble w ∧ i.wellFormed = true := by
  constructor
  · intro h
    unfold decode at h
    split at h
    · cases h
    · rename_i op ho
      split at h
      · cases h
      · split at h
        · cases h
          exact ⟨op, (Opcode.ofNumber_eq_some _ _).1 ho, not_not.1 ‹_›, rfl, ‹_›⟩
        · cases h
  · rintro ⟨op, ho, hm, rfl, hwf⟩
    simp [decode, (Opcode.ofNumber_eq_some _ _).2 ho, hm, hwf]

/-- R88. -/
theorem decode_eq_illegalOpcode (w : Word) : decode w = .illegalOpcode ↔ 7 ≤ opcField w := by
  rw [← Opcode.ofNumber_eq_none]
  unfold decode
  split
  · simp [*]
  · rename_i ho
    rw [ho]
    constructor
    · intro h
      split at h
      · cases h
      · split at h <;> cases h
    · intro h; cases h

/-- Every encoding is a packing under the command's own opcode. -/
theorem encode_eq (i : Instr) : ∃ rd rs1 rs2 rs3 imm, encode i = pack i.opcode rd rs1 rs2 rs3 imm := by
  cases i <;> exact ⟨_, _, _, _, _, rfl⟩

theorem assemble_encode (i : Instr) : i.opcode.assemble (encode i) = i := by
  cases i <;> simp [encode, Instr.opcode, Opcode.assemble]

theorem mask_encode (i : Instr) : encode i &&& i.opcode.mask = i.opcode.pattern := by
  rw [mask_iff]
  cases i <;> simp only [encode, Instr.opcode, opcField_pack, toNat_pack, true_and, Opcode.number] <;> (try simp) <;> omega

end Sys2Proof
end

