-- ==== Sys2Proof/Laws/HostProgram.lean ====
section
/-! SUPPORT. What each turn of a platform does (R67, R94, R167). -/

namespace Sys2Proof.Machine

@[simp] theorem push_nextEvent (s : State) (e : Event) : (s.push e).nextEvent = e := rfl
@[simp] theorem push_pop (s : State) (e : Event) : (s.push e).pop = s := rfl
@[simp] theorem wordRead_read (s : State) (r : BusResp) (w old : Word) : (s.emit (.readResp r w)).wordRead old = w := by
  simp [State.wordRead]
@[simp] theorem wordRead_write (s : State) (r : BusResp) (old : Word) : (s.emit (.writeResp r)).wordRead old = old := by
  simp [State.wordRead]

theorem statusWord_busy (s : State) : s.statusWord.getLsbD 0 = s.busy := by
  have h : s.statusWord.toNat % 2 = s.busy.toNat := by
    have := s.errcode.code.isLt
    rw [State.statusWord, BitVec.toNat_ofNat]
    cases s.busy <;> cases s.done <;> cases s.rflag <;> cases s.busyerr <;> cases s.lockerr <;>
      simp only [Bool.toNat_true, Bool.toNat_false] <;> omega
  rw [getLsbD_eq, Nat.pow_zero, Nat.div_one, h]
  cases s.busy <;> rfl

theorem statusWord_errcode (s : State) : errcodeField s.statusWord = s.errcode.code := by
  apply BitVec.eq_of_toNat_eq
  have := s.errcode.code.isLt
  rw [errcodeField, BitVec.extractLsb'_toNat, Nat.shiftRight_eq_div_pow, State.statusWord, BitVec.toNat_ofNat]
  cases s.busy <;> cases s.done <;> cases s.rflag <;> cases s.busyerr <;> cases s.lockerr <;>
    simp only [Bool.toNat_true, Bool.toNat_false] <;> omega

theorem code_eq_zero (e : ErrCode) : e.code = 0 ↔ e = .ok := by cases e <;> decide

theorem ldr_eq (c : Config) (r : RegIdx) (v : Nat) :
    ldr c r v = (List.range c.nwords).map fun w => writeWord (limbOffset r w) (limb v w) := by
  rw [ldr, ldrReqs, List.map_map]; rfl

/-- `DECRYPT` has an expansion exactly for Rt ≤ 12 (R94). -/
theorem decrypt_isSome (rd rc rp rq rt : RegIdx) : (decrypt rd rc rp rq rt).isSome = groupFits rt 4 := by
  rw [decrypt]; cases groupFits rt 4 <;> rfl

/-! ### The host's turn -/

/-- A host with nothing left to do. -/
theorem turn_host_done {p : Platform} (h : p.program = []) : p.turn .host = .next p := by
  simp only [Platform.turn, Platform.hostTurn, h]

/-- A word write of the host's. -/
theorem turn_host_write {p : Platform} {rest : List HostOp} {off : Offset} {v : Word} (hr : p.block.rst = false)
    (ha : off.toNat % 4 = 0) (h : p.program = .access (writeReq off v) :: rest) :
    p.turn .host =
      .next
        { block := (p.block.storeWord off v).emit (.writeResp .okay)
          program := rest
          lastRead := p.lastRead } := by
  simp only [Platform.turn, Platform.hostTurn, h, Platform.access, writeReq]
  rw [step_write (s := p.block.push _) hr (push_nextEvent _ _) ha]
  simp [onNext]

/-- One read of `WAIT`. -/
theorem turn_host_wait {p : Platform} {rest : List HostOp} (hr : p.block.rst = false)
    (h : p.program = .waitIdle :: rest) :
    p.turn .host =
      .next
        { block := p.block.emit (.readResp .okay p.block.statusWord)
          program := if p.block.busy then .waitIdle :: rest else rest
          lastRead := p.block.statusWord } := by
  have e : step (p.block.push (.bus (readReq 0x00C))) = .next (p.block.emit (.readResp .okay p.block.statusWord)) := by
    rw [readReq, step_of_bus (push_nextEvent _ _), push_pop, hostTurn_read hr]; rfl
  simp only [Platform.turn, Platform.hostTurn, h, Platform.access, e, onNext, wordRead_read, statusWord_busy]

/-- The test of ERRCODE. -/
theorem turn_host_test {p : Platform} {n : Nat} {rest : List HostOp} (h : p.program = .stopOnError n :: rest) :
    p.turn .host =
      .next { p with program := if errcodeField p.lastRead = 0 then rest else rest.drop n } := by
  simp only [Platform.turn, Platform.hostTurn, h]

/-! ### The engine's turn, and runs -/

/-- An engine turn on a command that decodes. -/
theorem turn_engine {p : Platform} {b : Busy} {i : Instr} (hr : p.block.rst = false) (h : p.block.phase = .busy b)
    (hd : decode b.word = .command i) :
    p.turn (.event .engine) = onNext (exec i p.block) fun s => { p with block := s } := by
  rw [Platform.turn, step_of_engine (push_nextEvent _ _), push_pop, engineTurn_busy hr h, hd]

/-- An engine turn on an idle block holds the state (R195). -/
theorem turn_engine_idle {p : Platform} (h : p.block.phase = .idle) : p.turn (.event .engine) = .next p := by
  rw [Platform.turn, step_of_engine (push_nextEvent _ _), push_pop, State.engineTurn, State.engineWork, h]
  by_cases hr : p.block.rst = true <;> simp [hr, onNext]

theorem run_cons {t : Turn} {p q : Platform} (h : p.turn t = .next q) (ts : List Turn) :
    Platform.run (t :: ts) p = Platform.run ts q := by rw [Platform.run, h]

/-- Any number of `WAIT`'s reads while the engine is busy: the block changes in nothing but what its ports have
carried. -/
theorem run_polls {rest : List HostOp} {b : Busy} (ts : List Turn) (n : Nat) (p : Platform) (hr : p.block.rst = false)
    (hb : p.block.phase = .busy b) (h : p.program = .waitIdle :: rest) :
    ∃ o l, Platform.run (List.replicate n .host ++ ts) p =
      Platform.run ts { block := { p.block with outputs := o }, program := .waitIdle :: rest, lastRead := l } := by
  induction n generalizing p with
  | zero => exact ⟨p.block.outputs, p.lastRead, by rw [List.replicate_zero, List.nil_append, ← h]⟩
  | succ n ih =>
    rw [List.replicate_succ, List.cons_append, run_cons (turn_host_wait hr h), busy_of_busy hb, if_pos rfl]
    exact ih _ hr hb rfl

/-- A host with nothing left to do, for any number of turns. -/
theorem run_done (ts : List Turn) (n : Nat) (p : Platform) (h : p.program = []) :
    Platform.run (List.replicate n .host ++ ts) p = Platform.run ts p := by
  induction n with
  | zero => rfl
  | succ n ih => rw [List.replicate_succ, List.cons_append, run_cons (turn_host_done h), ih]

/-- A completing body ends alike whatever the ports have carried. -/
theorem finish_outputs (s : State) (o : List Output) {x : Execution} (hx : ∀ r, x ≠ .draw r) :
    State.finish { s with outputs := o } x = { s.finish x with outputs := o } := by
  cases x with
  | ret f ws => rfl
  | raise e => rfl
  | draw r => exact absurd rfl (hx r)

/-- A command issued on an idle block and waited for, with any number of reads while it executes: the block has accepted
it and completed its body, and the word read last is STATUS at that point. -/
theorem run_command {p : Platform} {i : Instr} {rest : List HostOp} (ts : List Turn) (n : Nat) (hr : p.block.rst = false)
    (hp : p.block.phase = .idle) (h : p.program = .access (issueReq i) :: .waitIdle :: rest)
    (hd : decode (encode i) = .command i)
    (hx : ∀ r, bodyOf i p.block.cfg (p.block.snapshot (encode i)) ≠ .draw r) :
    ∃ o t, t = (p.block.accept (encode i)).finish (bodyOf i p.block.cfg (p.block.snapshot (encode i))) ∧
      Platform.run (.host :: (List.replicate n .host ++ .event .engine :: .host :: ts)) p =
        Platform.run ts { block := { t with outputs := o }, program := rest, lastRead := t.statusWord } := by
  generalize hb : bodyOf i p.block.cfg (p.block.snapshot (encode i)) = x at hx
  have h1 := turn_host_write (off := 0x010) hr (by decide) (show p.program = .access (writeReq 0x010 (encode i)) :: _ from h)
  rw [storeWord_cmd, writeCmd_idle hp] at h1
  obtain ⟨o, l, h2⟩ := run_polls (.event .engine :: .host :: ts) n
    { block := (p.block.accept (encode i)).emit (.writeResp .okay), program := .waitIdle :: rest, lastRead := p.lastRead }
    (b := p.block.snapshot (encode i)) hr rfl rfl
  have h3 : Platform.turn
        { block := { p.block.accept (encode i) with outputs := o }, program := .waitIdle :: rest, lastRead := l }
        (.event .engine) =
      .next
        { block := { (p.block.accept (encode i)).finish x with outputs := o }
          program := .waitIdle :: rest
          lastRead := l } := by
    refine (turn_engine (p := ⟨{ p.block.accept (encode i) with outputs := o }, _, l⟩) hr rfl hd).trans ?_
    rw [exec_busy (b := p.block.snapshot (encode i)) rfl, ← finish_outputs _ _ hx, ← hb]
    rfl
  have hi : ((p.block.accept (encode i)).finish x).phase = .idle ∧
      ((p.block.accept (encode i)).finish x).rst = false := by
    cases x with
    | ret f ws => exact ⟨rfl, hr⟩
    | raise e => exact ⟨rfl, hr⟩
    | draw r => exact absurd rfl (hx r)
  have h4 := turn_host_wait
    (p := { block := { (p.block.accept (encode i)).finish x with outputs := o }, program := .waitIdle :: rest, lastRead := l })
    (rest := rest) hi.2 rfl
  rw [busy_of_idle (s := { (p.block.accept (encode i)).finish x with outputs := o }) hi.1] at h4
  exact ⟨_, _, rfl, (run_cons h1 _).trans (h2.trans ((run_cons h3 _).trans (run_cons h4 _)))⟩

end Sys2Proof.Machine
end

