-- ==== Sys2Proof/Laws/MillerRabin.lean ====
section
/-! SUPPORT. How the trials of MRT end on the draws consumed so far (R132). -/

namespace Sys2Proof.Machine

/-- Enough draws, all passing: prime. -/
theorem mrtTrials_pass (n k : Nat) (ds : List Nat) (h : k ≤ ds.length) (hp : ∀ a ∈ ds.take k, witness n a = true) :
    mrtTrials n k ds = .ret true [] := by
  induction k generalizing ds with
  | zero => rfl
  | succ k ih =>
    cases ds with
    | nil => simp at h
    | cons a ds =>
      rw [mrtTrials, if_pos (hp a (by simp))]
      exact ih ds (by simpa using h) fun a ha => hp a (by simp [ha])

/-- The first failing draw decides: composite. -/
theorem mrtTrials_fail (n k : Nat) (passed : List Nat) (a : Nat) (rest : List Nat) (h : passed.length < k)
    (hp : ∀ d ∈ passed, witness n d = true) (ha : witness n a = false) :
    mrtTrials n k (passed ++ a :: rest) = .ret false [] := by
  induction passed generalizing k with
  | nil =>
    cases k with
    | zero => simp at h
    | succ k => simp [mrtTrials, ha]
  | cons d passed ih =>
    cases k with
    | zero => simp at h
    | succ k =>
      rw [List.cons_append, mrtTrials, if_pos (hp d (by simp))]
      exact ih k (by simpa using h) fun d hd => hp d (by simp [hd])

/-- Too few draws, all passing: the next base is asked for. -/
theorem mrtTrials_draw (n k : Nat) (ds : List Nat) (h : ds.length < k) (hp : ∀ a ∈ ds, witness n a = true) :
    mrtTrials n k ds = .draw { lo := 2, hi := n - 2 } := by
  induction ds generalizing k with
  | nil =>
    cases k with
    | zero => simp at h
    | succ k => rfl
  | cons a ds ih =>
    cases k with
    | zero => simp at h
    | succ k =>
      rw [mrtTrials, if_pos (hp a (by simp))]
      exact ih k (by simpa using h) fun a ha => hp a (by simp [ha])

/-- Odd n ≥ 5 go to the trials. -/
theorem mrtBody_odd (n k : Nat) (ds : List Nat) (h5 : 5 ≤ n) (ho : n % 2 = 1) :
    mrtBody n k ds = mrtTrials n k ds := by
  rw [mrtBody, if_neg (by omega), if_neg (by omega), if_neg (by omega)]

/-- The trials ask for a base only when every draw has passed and a trial is left. -/
theorem mrtTrials_draw_inv (n k : Nat) (ds : List Nat) (r : RngReq) (h : mrtTrials n k ds = .draw r) :
    r = { lo := 2, hi := n - 2 } ∧ ds.length < k ∧ ∀ a ∈ ds, witness n a = true := by
  induction k generalizing ds with
  | zero => cases h
  | succ k ih =>
    cases ds with
    | nil => cases h; simp
    | cons a ds =>
      rw [mrtTrials] at h
      split at h
      · obtain ⟨h1, h2, h3⟩ := ih ds h
        refine ⟨h1, by simpa using h2, ?_⟩
        intro x hx
        rcases List.mem_cons.1 hx with rfl | hx
        · assumption
        · exact h3 x hx
      · cases h

/-- MRT asks for a base only for an odd n ≥ 5. -/
theorem mrtBody_draw_inv (n k : Nat) (ds : List Nat) (r : RngReq) (h : mrtBody n k ds = .draw r) :
    5 ≤ n ∧ n % 2 = 1 ∧ r = { lo := 2, hi := n - 2 } ∧ ds.length < k ∧ ∀ a ∈ ds, witness n a = true := by
  unfold mrtBody at h
  split at h; · cases h
  split at h; · cases h
  split at h; · cases h
  obtain ⟨h1, h2⟩ := mrtTrials_draw_inv _ _ _ _ h
  exact ⟨by omega, by omega, h1, h2⟩

end Sys2Proof.Machine
end

