-- ==== Sys2Proof/Laws/PerInstr.lean ====
section
/-! SUPPORT. What holds of the encoding of each command, one lemma per constructor of Instr (R86). -/

namespace Sys2Proof.Laws.EncodedWord

/-- The word of a command carries the command's opcode, lies under its row's mask, and gives its fields back to the
row. -/
def Statement (i : Instr) : Prop :=
  opcField (encode i) = i.opcode.number ∧ encode i &&& i.opcode.mask = i.opcode.pattern ∧
    i.opcode.assemble (encode i) = i

theorem nop : Statement .nop := ⟨opcField_pack .., mask_encode _, assemble_encode _⟩
theorem modexp (rd rs1 rs2 rs3 : RegIdx) : Statement (.modexp rd rs1 rs2 rs3) :=
  ⟨opcField_pack .., mask_encode _, assemble_encode _⟩
theorem mrw (rs1 rs2 : RegIdx) : Statement (.mrw rs1 rs2) := ⟨opcField_pack .., mask_encode _, assemble_encode _⟩
theorem mrt (rs1 : RegIdx) (imm : BitVec 8) : Statement (.mrt rs1 imm) :=
  ⟨opcField_pack .., mask_encode _, assemble_encode _⟩
theorem egcd (rd rs1 rs2 : RegIdx) : Statement (.egcd rd rs1 rs2) :=
  ⟨opcField_pack .., mask_encode _, assemble_encode _⟩
theorem crtsqrt (rd rs1 rs2 rs3 : RegIdx) : Statement (.crtsqrt rd rs1 rs2 rs3) :=
  ⟨opcField_pack .., mask_encode _, assemble_encode _⟩
theorem tagsel (rd rs1 : RegIdx) : Statement (.tagsel rd rs1) := ⟨opcField_pack .., mask_encode _, assemble_encode _⟩

end Sys2Proof.Laws.EncodedWord
end

