-- ==== Sys2Proof/Laws/Step.lean ====
section
/-! SUPPORT. Everything a step can be, said once (R67), and the ways into the invariant. -/

namespace Sys2Proof.Machine

/-! ### A step -/

/-- Everything a step can be: the reset pin; a port output; nothing; an accepted write; an answer consumed; the engine's
turn on a command or on a word that decodes to none. -/
theorem step_cases {s t : State} (h : step s = .next t) :
    (∃ l, s.nextEvent = .rst l ∧ t = s.pop.driveRst l) ∨
    (∃ o, t = s.pop.emit o) ∨ t = s.pop ∨
    (∃ off v, s.rst = false ∧ s.nextEvent = .bus (.write off .word v) ∧ off.toNat % 4 = 0 ∧ 
      t = (s.pop.storeWord off v).emit (.writeResp .okay)) ∨
    (∃ b r v, s.rst = false ∧ s.nextEvent = .rng v ∧ s.phase = .busy b ∧ b.rngReq = some r ∧
      r.lo ≤ v % 2 ^ s.cfg.nbits ∧ v % 2 ^ s.cfg.nbits ≤ r.hi ∧
      t = { s.pop with phase := .busy { b with draws := b.draws ++ [v % 2 ^ s.cfg.nbits], rngReq := none } }) ∨
    (∃ b, s.rst = false ∧ s.nextEvent = .engine ∧ s.phase = .busy b ∧
      ((∃ i, decode b.word = .command i ∧ exec i s.pop = .next t) ∨ ∃ e, e ≠ .ok ∧ t = s.pop.finish (.raise e))) := by
  cases he : s.nextEvent with
  | rst l => rw [step_of_rst he] at h; cases h; exact .inl ⟨l, rfl, rfl⟩
  | bus req =>
    right
    rw [step_of_bus he] at h
    by_cases hr : s.rst = true
    · simp [State.hostTurn, hr] at h
    · rw [Bool.not_eq_true] at hr
      cases req with
      | read off size => rw [hostTurn_read (s := s.pop) hr] at h; cases h; exact .inl ⟨_, rfl⟩
      | write off size v =>
        rw [hostTurn_write (s := s.pop) hr] at h; cases h
        by_cases ha : accessOk off size = true
        · rw [if_pos ha]
          obtain ⟨rfl, ha'⟩ := (accessOk_iff _ _).1 ha
          exact .inr (.inr (.inl ⟨off, v, hr, rfl, ha', rfl⟩))
        · rw [if_neg ha]; exact .inl ⟨_, rfl⟩
  | rng v =>
    right
    rw [step_of_rng he] at h; cases h
    by_cases hr : s.rst = true
    · exact .inr (.inl (if_pos hr))
    · rw [Bool.not_eq_true] at hr
      have e : s.pop.rngTurn v = s.pop.rngAnswer v := if_neg (by simp [hr])
      rw [e, State.rngAnswer, pop_phase]
      cases hp : s.phase with
      | idle => exact .inr (.inl rfl)
      | busy b =>
        dsimp only
        cases hb : b.rngReq with
        | none => exact .inr (.inl rfl)
        | some r =>
          dsimp only
          split
          · rename_i hc
            exact .inr (.inr (.inr (.inl ⟨b, r, v, hr, rfl, rfl, hb, hc.1, hc.2, rfl⟩)))
          · exact .inl ⟨_, rfl⟩
  | engine =>
    right
    rw [step_of_engine he] at h
    by_cases hr : s.rst = true
    · have : s.pop.engineTurn exec = .next s.pop := by simp [State.engineTurn, State.engineWork, hr]
      rw [this] at h; cases h; exact .inr (.inl rfl)
    · rw [Bool.not_eq_true] at hr
      cases hp : s.phase with
      | idle =>
        have : s.pop.engineTurn exec = .next s.pop := by simp [State.engineTurn, State.engineWork, hr, hp]
        rw [this] at h; cases h; exact .inr (.inl rfl)
      | busy b =>
        rw [engineTurn_busy (s := s.pop) hr hp] at h
        refine .inr (.inr (.inr (.inr ⟨b, hr, rfl, rfl, ?_⟩)))
        cases hd : decode b.word <;> rw [hd] at h
        · exact .inl ⟨_, rfl, h⟩
        · cases h; exact .inr ⟨.illegalOpcode, by simp, rfl⟩
        · cases h; exact .inr ⟨.illegalField, by simp, rfl⟩

/-- What no turn of the engine changes, whether or not it completes the command. -/
theorem exec_rest {i : Instr} {s t : State} (h : exec i s = .next t) : 
    t.cfg = s.cfg ∧ t.rst = s.rst ∧ t.ie = s.ie ∧ t.lock = s.lock ∧ t.busyerr = s.busyerr ∧
    t.lockerr = s.lockerr ∧ t.cmd = s.cmd ∧ t.tagw = s.tagw ∧ t.taghLo = s.taghLo ∧ t.taghHi = s.taghHi ∧ t.inputs = s.inputs := by
  rcases exec_next_cases h with ⟨e, _, hf⟩ | ⟨_, hf⟩ | ⟨n, k, b', r, _, hb, _, ⟨_, rfl⟩ | ⟨_, rfl⟩⟩
  · obtain ⟨h1, h2, h3, h4, h5, h6, h7, h8, h9, h10, h11, _⟩ := hf.rest
    exact ⟨h1, h2, h3, h4, h5, h6, h7, h8, h9, h10, h11⟩
  · obtain ⟨h1, h2, h3, h4, h5, h6, h7, h8, h9, h10, h11, _⟩ := hf.rest
    exact ⟨h1, h2, h3, h4, h5, h6, h7, h8, h9, h10, h11⟩
  · exact ⟨rfl, rfl, rfl, rfl, rfl, rfl, rfl, rfl, rfl, rfl, rfl⟩
  · exact ⟨rfl, rfl, rfl, rfl, rfl, rfl, rfl, rfl, rfl, rfl, rfl⟩

/-- One step of a run. -/
theorem run_succ (k : Nat) (s t : State) (h : step s = .next t) :
    Sys2Proof.core.run (k + 1) s = Sys2Proof.core.run k t := by
  have h2 : Sys2Proof.core.step s = .next t := h
  simp only [Host.Core.run, h2]

/-! ### The invariant -/

/-- R23. -/
theorem reset_reg (c : Config) (i : RegIdx) : (State.resetOf c).reg i = 0 := by
  simp [State.reg, State.resetOf]

/-- An idle state out of reset meets the invariant as soon as its registers keep to their width. -/
theorem inv_of_idle {s : State} (hr : s.rst = false) (hp : s.phase = .idle) (hl : ∀ i, s.reg i < 2 ^ s.cfg.nbits) :
    s.Inv where
  regs_lt := hl
  in_reset h := by rw [hr] at h; cases h
  snapshot b h := by rw [hp] at h; cases h
  status b h := by rw [hp] at h; cases h
  rng b h := by rw [hp] at h; cases h

/-- Acceptance gives a state of the invariant. -/
theorem inv_accept {s : State} (hr : s.rst = false) (hl : ∀ i, s.reg i < 2 ^ s.cfg.nbits) (w : Word) :
    (s.accept w).Inv where
  regs_lt := hl
  in_reset h := by rw [accept_rst, hr] at h; cases h
  snapshot b h := by cases h; exact ⟨rfl, rfl, rfl, rfl⟩
  status b h := by cases h; exact ⟨rfl, rfl, rfl⟩
  rng b h := by cases h; exact .inl ⟨rfl, rfl⟩

/-- The invariant does not look at the environment's lists. -/
theorem inv_congr {s t : State} (hi : s.Inv) (h : t = { s with inputs := t.inputs, outputs := t.outputs }) :
    t.Inv := by
  rw [h]
  exact { regs_lt := hi.regs_lt
          in_reset := fun hr => by
            have := hi.in_reset hr
            rw [this]; rfl
          snapshot := hi.snapshot, status := hi.status, rng := hi.rng }

end Sys2Proof.Machine
end

