-- ==== Sys2Proof/Tests/Slice0.lean ====
section
/-! SUPPORT. The model's own tests. Expected values come from spec/95_test_vectors.md, spec/30_encoding.md R95 or a hand
calculation named in the comment. The second half holds, for every statement with hypotheses, a concrete state and
operands that meet them together. -/

namespace Sys2Proof.Tests

open Sys2Proof.Machine

/-! ### Small states -/

/-- The state after reset with some registers written. -/
def withRegs (ws : List (RegIdx × Nat)) : State :=
  { State.reset with regs := commit State.reset.cfg.nbits ws State.reset.regs }

/-- That state with the tag set. -/
def withTag (w : BitVec 8) (h : BitVec 64) (ws : List (RegIdx × Nat)) : State :=
  { withRegs ws with tagw := w, taghLo := h.extractLsb' 0 32, taghHi := h.extractLsb' 32 32 }

/-- What BUSY holds with some answers already drawn. -/
def drawn (ds : List Nat) (r : Option RngReq) (b : Busy) : Busy := { b with draws := ds, rngReq := r }

/-- A state that executes a word, with some answers already drawn. -/
def running (s : State) (w : Word) (ds : List Nat) (r : Option RngReq) : State :=
  { s.accept w with phase := .busy (drawn ds r (s.snapshot w)) }

/-- What a step answers, read through `f`. -/
def stepped {α : Type} (s : State) (f : State → α) : Option α :=
  match step s with
  | .next t => some (f t)
  | .fault _ => none
  | .refused _ => none

/-- The state at which one event comes next. -/
def at_ (s : State) (e : Event) : State := { s with inputs := [e] }

/-! ### WellFormed: an ill-formed term for each check (R90) -/

theorem test_wellFormed_refuses_egcd_past_r15 : Instr.wellFormed (.egcd 14 0 1) = false := by decide
theorem test_wellFormed_refuses_crtsqrt_past_r15 : Instr.wellFormed (.crtsqrt 13 0 1 2) = false := by decide
theorem test_wellFormed_refuses_tagsel_past_r15 : Instr.wellFormed (.tagsel 8 13) = false := by decide

/-! ### Decode: words written out from the patterns of R86 (fields k = IMM8, c = RS3, b = RS2, a = RS1, d = RD) -/

/-- NOP: `00000000000000000000000000000000`. -/
theorem test_decode_nop : decode 0b00000000000000000000000000000000 = .command .nop := by decide
/-- MODEXP: `00000000ccccbbbbaaaadddd00000001` with c = 2, b = 1, a = 0, d = 3. -/
theorem test_decode_modexp : decode 0b00000000001000010000001100000001 = .command (.modexp 3 0 1 2) := by decide
/-- MRW: `000000000000bbbbaaaa000000000010` with b = 1, a = 15. -/
theorem test_decode_mrw : decode 0b00000000000000011111000000000010 = .command (.mrw 15 1) := by decide
/-- MRT: `kkkkkkkk00000000aaaa000000000011` with k = 100, a = 8. -/
theorem test_decode_mrt : decode 0b01100100000000001000000000000011 = .command (.mrt 8 100) := by decide
/-- EGCD: `000000000000bbbbaaaadddd00000100` with b = 1, a = 0, d = 5. -/
theorem test_decode_egcd : decode 0b00000000000000010000010100000100 = .command (.egcd 5 0 1) := by decide
/-- CRTSQRT: `00000000ccccbbbbaaaadddd00000101` with c = 11, b = 10, a = 2, d = 4 (95 §3, P2 step 7: 0x00BA2405). -/
theorem test_decode_crtsqrt : decode 0b00000000101110100010010000000101 = .command (.crtsqrt 4 2 10 11) := by decide
/-- TAGSEL: `0000000000000000aaaadddd00000110` with a = 4, d = 8. -/
theorem test_decode_tagsel : decode 0b00000000000000000100100000000110 = .command (.tagsel 8 4) := by decide

/-- 95 §2.1: the words with result ILLEGAL_OPCODE. -/
theorem test_decode_illegalOpcode :
    decode 0x00000007 = .illegalOpcode ∧ decode 0x000000FF = .illegalOpcode ∧ decode 0xFFFFFFFF = .illegalOpcode := by
  decide
/-- 95 §2.1: the words with result ILLEGAL_FIELD for a must-be-zero field. -/
theorem test_decode_illegalField :
    decode 0x00000100 = .illegalField ∧ decode 0xFFFFFF00 = .illegalField ∧ decode 0x01000001 = .illegalField ∧
      decode 0x00000102 = .illegalField ∧ decode 0x00100002 = .illegalField ∧ decode 0x64010003 = .illegalField ∧
      decode 0x01010E04 = .illegalField ∧ decode 0x00104806 = .illegalField ∧ decode 0x00014806 = .illegalField := by
  decide
/-- 95 §2.1: the words with result ILLEGAL_FIELD for a group past R15. -/
theorem test_decode_group_past_r15 :
    decode 0x00010E04 = .illegalField ∧ decode 0x00210D05 = .illegalField ∧ decode 0x0000D806 = .illegalField := by
  decide
/-- 95 §2.1: the last groups that fit. -/
theorem test_decode_last_groups :
    decode 0x00010D04 = .command (.egcd 13 0 1) ∧ decode 0x00210C05 = .command (.crtsqrt 12 0 1 2) ∧
      decode 0x0000C806 = .command (.tagsel 8 12) := by decide

theorem test_decodeTableWord :
    decodeTableWord 32 0x00210301 = some (.modexp 3 0 1 2) ∧ decodeTableWord 32 0x00000007 = none := by decide

/-! ### One step of each command (95 §2) -/

/-- R110: STATUS reads 0x00000002. -/
theorem test_nop : stepped ((withRegs []).withFetchWord 32 0x00000000) State.statusWord = some 0x00000002 := by decide

/-- E1: 4^13 mod 497 = 445. -/
theorem test_modexp :
    stepped ((withRegs [(0, 4), (1, 13), (2, 497)]).withFetchWord 32 0x00210301) (fun t => (t.reg 3, t.statusWord)) =
      some (445, 0x00000002) := by decide
/-- R106: `MODEXP R0, R0, R0, R0` with 5 gives 0, read from the snapshot. -/
theorem test_modexp_alias :
    stepped ((withRegs [(0, 5)]).withFetchWord 32 0x00000001) (fun t => t.reg 0) = some 0 := by decide

/-- 95 §2.5: 221 passes base 174, STATUS 0x00000006; 561 fails base 2. -/
theorem test_mrw_liar :
    stepped ((withRegs [(0, 221), (1, 174)]).withFetchWord 32 0x00010002) State.statusWord = some 0x00000006 := by
  decide
theorem test_mrw_witness :
    stepped ((withRegs [(0, 561), (1, 2)]).withFetchWord 32 0x00010002) State.statusWord = some 0x00000002 := by decide

/-- 95 §2.6: 97 with bases 2, 3, 5 is prime for k = 3. -/
theorem test_mrt_passes :
    stepped (running (withRegs [(0, 97)]) 0x03000003 [2, 3, 5] none) State.statusWord = some 0x00000006 := by decide
/-- 95 §2.6, P6: MRT on 97 asks for a base in [2, 95] and stays busy, STATUS 0x00000001. -/
theorem test_mrt_asks :
    stepped ((withRegs [(0, 97)]).withFetchWord 32 0x64000003) (fun t => (t.outputs, t.statusWord)) =
      some ([.rngRequest { lo := 2, hi := 95 }], 0x00000001) := by decide

/-- 95 §2.7: egcd(240, 46) = (2, −9, 47), −9 as 0xFFF…F7. -/
theorem test_egcd :
    stepped ((withRegs [(0, 240), (1, 46)]).withFetchWord 32 0x00010504) (fun t => (t.reg 5, t.reg 6, t.reg 7)) =
      some (2, 0xfffffffffffffffffffffffffffffff7, 47) := by decide +kernel
/-- 95 §2.7: egcd(0, 5) = (5, 0, 1). -/
theorem test_egcd_zero :
    stepped ((withRegs [(1, 5)]).withFetchWord 32 0x00010504) (fun t => (t.reg 5, t.reg 6, t.reg 7)) =
      some (5, 0, 1) := by decide +kernel

/-- 95 §2.8: c = 53, p = 7, q = 11 gives 58, 19, 47, 30. -/
theorem test_crtsqrt :
    stepped ((withRegs [(0, 53), (1, 7), (2, 11)]).withFetchWord 32 0x00210405)
      (fun t => (t.reg 4, t.reg 5, t.reg 6, t.reg 7)) = some (58, 19, 47, 30) := by decide
/-- 95 §2.8: c = 0 gives 0, 77, 0, 77. -/
theorem test_crtsqrt_zero :
    stepped ((withRegs [(1, 7), (2, 11)]).withFetchWord 32 0x00210405)
      (fun t => (t.reg 4, t.reg 5, t.reg 6, t.reg 7)) = some (0, 77, 0, 77) := by decide

/-- 95 §2.9: 25, 52, 3, 74 with W = 4, h = 0xA gives 4, STATUS 0x00000006. -/
theorem test_tagsel :
    stepped ((withTag 4 0xA [(4, 25), (5, 52), (6, 3), (7, 74)]).withFetchWord 32 0x00004806)
      (fun t => (t.reg 8, t.statusWord)) = some (4, 0x00000006) := by decide
/-- 95 §2.9: no match leaves R8 = 0x99 and STATUS 0x00000A02. -/
theorem test_tagsel_mismatch :
    stepped ((withTag 4 0xA [(4, 17), (5, 34), (6, 51), (7, 68), (8, 0x99)]).withFetchWord 32 0x00004806)
      (fun t => (t.reg 8, t.statusWord)) = some (0x99, 0x00000A02) := by decide

/-! ### One step of the bus, the RNG and the pin (95 §2.2, §3) -/

/-- 95 §2.2: PARAM reads 0x01100004. -/
theorem test_read_param :
    stepped (at_ State.reset (readWord 0x004)) State.outputs = some [.readResp .okay 0x01100004] := by decide
/-- 95 §2.2: limb 2 of 0x0123456789abcdef0011223344556677. -/
theorem test_read_limb :
    stepped (at_ (withRegs [(0, 0x0123456789abcdef0011223344556677)]) (readWord 0x1008)) State.outputs =
      some [.readResp .okay 0x89ABCDEF] := by decide
/-- 95 §2.2: a write to limb 4 of a 4-limb register is ignored. -/
theorem test_write_past_limbs :
    stepped (at_ (withRegs [(0, 5)]) (writeWord 0x1010 0xDEADBEEF)) (fun t => (t.reg 0, t.statusWord)) =
      some (5, 0) := by decide
/-- 95 §2.2: `MemWrite(0x014, 4, 0x1FF)` stores 0xFF. -/
theorem test_write_tagw : stepped (at_ State.reset (writeWord 0x014 0x1FF)) State.tagwWord = some 0xFF := by decide
/-- P6 step 3: the answer 96 to the request (2, 95) is discarded and the request repeated. -/
theorem test_rng_out_of_range :
    stepped (at_ (running (withRegs [(0, 97)]) 0x64000003 [] (some { lo := 2, hi := 95 })) (.rng 96))
      (fun t => (t.statusWord, t.outputs)) = some (0x00000001, [.rngRequest { lo := 2, hi := 95 }]) := by decide
/-- P6 step 5: reset abandons the MRT and clears everything. -/
theorem test_reset_abandons :
    stepped (at_ (running (withRegs [(0, 97)]) 0x64000003 [] (some { lo := 2, hi := 95 })) (.rst true))
      (fun t => (t.statusWord, t.reg 0, t.phase)) = some (0, 0, .idle) := by decide

/-! ### The host's text (R94; 95 §3) -/

/-- P2 step 1: `SETTAG 4, 0xA`. -/
theorem test_setTag :
    setTagReqs 4 0xA = [writeReq 0x014 4, writeReq 0x018 0xA, writeReq 0x01C 0, writeReq 0x008 2] := by decide
/-- P2 step 4: `SQRMOD R2, R0, R1, R3` writes 2 to R3 limb by limb and issues 0x00130201. -/
theorem test_sqrmod :
    sqrmodReqs Config.vectors 2 0 1 3 =
      [writeReq 0x1600 2, writeReq 0x1604 0, writeReq 0x1608 0, writeReq 0x160C 0, writeReq 0x010 0x00130201] := by
  decide
/-- P2 steps 7 to 10: the words issued, with the test of R167 between; Rt = 13 has no expansion. -/
theorem test_decrypt :
    decrypt 8 2 10 11 4 =
        some [.access (writeReq 0x010 0x00BA2405), .waitIdle, .stopOnError 2, .access (writeReq 0x010 0x00004806), .waitIdle] ∧
      decrypt 8 2 10 11 13 = none := by decide
/-- P5 step 3: the limbs of −9. -/
theorem test_limbsValue :
    limbsValue [0xFFFFFFF7, 0xFFFFFFFF, 0xFFFFFFFF, 0xFFFFFFFF] = 0xfffffffffffffffffffffffffffffff7 := by decide
/-- P5 step 3: where `STR R6` reads. -/
theorem test_str :
    strReqs Config.vectors 6 = [readReq 0x1C00, readReq 0x1C04, readReq 0x1C08, readReq 0x1C0C] ∧
      ackReqs = [writeReq 0x00C 2] ∧ encode (isPrimeCmd 0) = 0x64000003 := by decide

/-- What a host program leaves, read through `f`. -/
def ran {α : Type} (s : State) (prog : List HostOp) (ts : List Turn) (f : Platform → α) : Option α :=
  match Platform.run ts { block := s, program := prog, lastRead := 0 } with
  | .next p => some (f p)
  | .fault _ => none
  | .refused _ => none

/-- 95 §2.6, n = 5, k = 1, base 3: `WAIT` on MRT polls until the answer has come and its trial has run. -/
theorem test_wait_on_mrt :
    ran (withRegs [(0, 5)]) [.access (issueReq (.mrt 0 1)), .waitIdle]
        [.host, .host, .event .engine, .host, .event (.rng 3), .host, .event .engine, .host]
        (fun p => (p.program, p.lastRead)) = some ([], 0x00000006) ∧
      ran (withRegs [(0, 5)]) [.access (issueReq (.mrt 0 1)), .waitIdle]
        [.host, .host, .event .engine, .host, .event (.rng 3), .host] (fun p => (p.program, p.lastRead)) =
        some ([.waitIdle], 0x00000001) := by decide +kernel
/-- R167: with p = 5 the program ends after the first `WAIT`; R8 and CMD say that TAGSEL was not issued. -/
theorem test_decrypt_stops_on_key_error :
    ran (withRegs [(2, 4), (10, 5), (11, 11)]) ((decrypt 8 2 10 11 4).getD [])
        [.host, .host, .event .engine, .host, .host, .host] (fun p => (p.program, p.block.statusWord, p.block.cmd)) =
      some ([], 0x00000502, 0x00BA2405) := by decide +kernel

/-! ## Witnesses: for each statement with hypotheses, data that meet them together -/

/-- The snapshot that `running` executes on. -/
def snap (s : State) (w : Word) (ds : List Nat) (r : Option RngReq) : Busy := drawn ds r (s.snapshot w)

theorem running_phase (s : State) (w : Word) (ds : List Nat) (r : Option RngReq) :
    (running s w ds r).phase = .busy (snap s w ds r) := rfl

/-- A command's turn on a running state answers a next state. -/
theorem running_exec (s : State) (w : Word) (ds : List Nat) (r : Option RngReq) (i : Instr) :
    exec i (running s w ds r) =
      .next ((running s w ds r).finish (bodyOf i s.cfg (snap s w ds r))) := exec_busy rfl i

theorem withRegs_lt (ws : List (RegIdx × Nat)) (i : RegIdx) : (withRegs ws).reg i < 2 ^ (withRegs ws).cfg.nbits :=
  getElem_commit_lt _ ws _ (fun j => by rw [show State.reset.regs[j] = 0 from reset_reg Config.vectors j]; positivity) i

/-! ### Encoding -/

theorem witness_DecodeOfEncode :
    Instr.wellFormed (.egcd 13 15 15) = true ∧ Instr.wellFormed (.crtsqrt 12 0 15 15) = true ∧
      Instr.wellFormed (.tagsel 15 12) = true ∧ Instr.wellFormed (.mrt 15 255) = true := by decide
theorem witness_EncodeOfDecode :
    decode 0xFF00F003 = .command (.mrt 15 255) ∧ decode 0x000FFD04 = .command (.egcd 13 15 15) := by decide

theorem witness_ReservedOpcode :
    (running State.reset 0xFFFFFF07 [] none).rst = false ∧
      (running State.reset 0xFFFFFF07 [] none).phase = .busy (snap State.reset 0xFFFFFF07 [] none) ∧
      (running State.reset 0xFFFFFF07 [] none).nextEvent = .engine ∧
      0x07 ≤ (snap State.reset 0xFFFFFF07 [] none).word.toNat % 2 ^ 8 := by decide
/-- One word for each row of R86, with one bit of a must-be-zero field set. -/
theorem witness_NonzeroReservedField (w : Word) :
    (running State.reset w [] none).rst = false ∧
      (running State.reset w [] none).phase = .busy (snap State.reset w [] none) ∧
      (running State.reset w [] none).nextEvent = .engine ∧ (snap State.reset w [] none).word = w := ⟨rfl, rfl, rfl, rfl⟩
theorem witness_NonzeroReservedField_rows :
    ((0x80000000 : Word).toNat % 2 ^ 8 = 0 ∧ (0x80000000 : Word) &&& 0xFFFFFF00 ≠ 0) ∧
    ((0x01000001 : Word).toNat % 2 ^ 8 = 1 ∧ (0x01000001 : Word) &&& 0xFF000000 ≠ 0) ∧
    ((0x00000102 : Word).toNat % 2 ^ 8 = 2 ∧ (0x00000102 : Word) &&& 0xFFF00F00 ≠ 0) ∧
    ((0x64010003 : Word).toNat % 2 ^ 8 = 3 ∧ (0x64010003 : Word) &&& 0x00FF0F00 ≠ 0) ∧
    ((0x00100004 : Word).toNat % 2 ^ 8 = 4 ∧ (0x00100004 : Word) &&& 0xFFF00000 ≠ 0) ∧
    ((0x80000005 : Word).toNat % 2 ^ 8 = 5 ∧ (0x80000005 : Word) &&& 0xFF000000 ≠ 0) ∧
    ((0x00014806 : Word).toNat % 2 ^ 8 = 6 ∧ (0x00014806 : Word) &&& 0xFFFF0000 ≠ 0) := by decide
theorem witness_GroupPastR15 :
    ((0x00010E04 : Word).toNat % 2 ^ 8 = 4 ∧ 13 < (0x00010E04 : Word).toNat / 2 ^ 8 % 16) ∧
    ((0x00210D05 : Word).toNat % 2 ^ 8 = 5 ∧ 12 < (0x00210D05 : Word).toNat / 2 ^ 8 % 16) ∧
    ((0x0000D806 : Word).toNat % 2 ^ 8 = 6 ∧ 12 < (0x0000D806 : Word).toNat / 2 ^ 12 % 16) ∧
    (running State.reset 0x00010E04 [] none).phase = .busy (snap State.reset 0x00010E04 [] none) ∧
    13 < (14 : RegIdx).val ∧ 12 < (13 : RegIdx).val := by decide

/-! ### The step, acceptance, completion -/

theorem witness_StepRunsTheAcceptedCommand :
    (running State.reset 0x00210301 [] none).rst = false ∧
      (running State.reset 0x00210301 [] none).phase = .busy (snap State.reset 0x00210301 [] none) ∧
      (running State.reset 0x00210301 [] none).nextEvent = .engine ∧
      decode (snap State.reset 0x00210301 [] none).word = .command (.modexp 3 0 1 2) := by decide
/-- The stops do arise. -/
theorem witness_StopsOnlyInResetOrOnAnIdleEngine :
    ({ at_ State.reset (readWord 0x000) with rst := true } : State).rst = true ∧
      ({ at_ State.reset (readWord 0x000) with rst := true } : State).nextEvent = .bus (.read 0x000 .word) ∧
      State.reset.phase = .idle := by decide
/-- An idle block on an unasked answer, and on the write that wakes it. -/
theorem witness_IdleBlockHoldsItsState :
    ((at_ State.reset (.rng 5)).phase = .idle ∧ (∃ t, step (at_ State.reset (.rng 5)) = .next t) ∧
      (∀ off size v, (at_ State.reset (.rng 5)).nextEvent ≠ .bus (.write off size v)) ∧
      ∀ level, (at_ State.reset (.rng 5)).nextEvent ≠ .rst level) ∧
    ∃ t, step (at_ State.reset (issue .nop)) = .next t ∧ t.phase ≠ .idle := by
  refine ⟨⟨rfl, ⟨_, rfl⟩, ?_, ?_⟩, _, rfl, ?_⟩
  · intro _ _ _ h; cases h
  · intro _ h; cases h
  · intro h; cases h
theorem witness_CmdWritesAcceptedExactlyWhenIdle :
    ((at_ State.reset (writeWord 0x010 0xFFFFFFFF)).rst = false ∧
      (at_ State.reset (writeWord 0x010 0xFFFFFFFF)).nextEvent = .bus (.write 0x010 .word 0xFFFFFFFF) ∧
      (at_ State.reset (writeWord 0x010 0xFFFFFFFF)).phase = .idle) ∧
    (at_ (running State.reset 0 [] none) (writeWord 0x010 1)).rst = false ∧
      (at_ (running State.reset 0 [] none) (writeWord 0x010 1)).nextEvent = .bus (.write 0x010 .word 1) ∧
      (at_ (running State.reset 0 [] none) (writeWord 0x010 1)).phase = .busy (snap State.reset 0 [] none) := by decide
theorem witness_CommandsButMrtCompleteInOneTurn :
    (running State.reset 0 [] none).phase = .busy (snap State.reset 0 [] none) ∧ ∀ n k, Instr.nop ≠ .mrt n k :=
  ⟨rfl, fun _ _ h => by cases h⟩
/-- MODEXP with n = 0, and a reserved opcode. -/
theorem witness_ErrorsWriteNoRegister :
    (∃ t, exec (.modexp 3 0 1 2) (running State.reset 0x00210301 [] none) = .next t ∧ t.phase = .idle ∧
      t.errcode ≠ .ok) ∧
    ∃ t, step (running State.reset 0x00000007 [] none) = .next t ∧ t.phase = .idle ∧ t.errcode ≠ .ok :=
  ⟨⟨_, running_exec .., by decide⟩, _, rfl, by decide⟩
theorem witness_CommandsWriteOnlyTheirDestinations :
    (∃ t, exec (.modexp 3 0 1 2) (running (withRegs [(2, 7)]) 0x00210301 [] none) = .next t) ∧
      (2 : RegIdx) ∉ dests (.modexp 3 0 1 2) ∧ (4 : RegIdx) ∉ dests (.modexp 3 0 1 2) :=
  ⟨⟨_, running_exec ..⟩, by decide⟩
/-- The bytes next to STATUS and next to R3's part of the window. -/
theorem witness_WindowBytesOutsideDestinationsKept :
    (∃ t, exec (.modexp 3 0 1 2) (running (withRegs [(2, 7)]) 0x00210301 [] none) = .next t) ∧
      ∀ a ∈ [0x00B, 0x010, 0x15FF, 0x1800],
        (a < State.reset.cfg.base + 0x00C ∨ State.reset.cfg.base + 0x010 ≤ a) ∧
        ∀ r ∈ dests (.modexp 3 0 1 2), a < State.reset.cfg.base + 0x1000 + 0x200 * r.val ∨
          State.reset.cfg.base + 0x1000 + 0x200 * (r.val + 1) ≤ a := ⟨⟨_, running_exec ..⟩, by decide⟩
/-- Two states that execute the same and hold different live registers. -/
theorem witness_ExecutionDependsOnlyOnTheSnapshot :
    (running (withRegs [(2, 7)]) 0x00210301 [] none).phase =
        ({ running (withRegs [(2, 7)]) 0x00210301 [] none with regs := State.reset.regs } : State).phase ∧
      (∃ t, exec (.modexp 3 0 1 2) (running (withRegs [(2, 7)]) 0x00210301 [] none) = .next t) ∧
      ∃ t, exec (.modexp 3 0 1 2)
        { running (withRegs [(2, 7)]) 0x00210301 [] none with regs := State.reset.regs } = .next t :=
  ⟨rfl, ⟨_, running_exec ..⟩, _, exec_busy rfl _⟩
theorem witness_HostSeesOldValuesWhileBusy :
    ((withRegs [(0, 5)]).accept 0x00210301).Inv ∧
      ((withRegs [(0, 5)]).accept 0x00210301).phase = .busy ((withRegs [(0, 5)]).snapshot 0x00210301) :=
  ⟨inv_accept rfl (withRegs_lt _) _, rfl⟩
theorem witness_NopCompletes : (running State.reset 0 [] none).phase = .busy (snap State.reset 0 [] none) := rfl

/-! ### MODEXP, MRW, MRT -/

/-- n = 1 and the largest a, d and n. -/
theorem witness_ModexpWritesPowerModN :
    ((snap (withRegs [(2, 1)]) 0x00210301 [] none).InRange Config.vectors ∧
      (snap (withRegs [(2, 1)]) 0x00210301 [] none).src 2 ≠ 0) ∧
    (snap (withRegs [(0, 2 ^ 128 - 1), (1, 2 ^ 128 - 1), (2, 2 ^ 128 - 1)]) 0x00210301 [] none).InRange Config.vectors ∧
      (snap (withRegs [(0, 2 ^ 128 - 1), (1, 2 ^ 128 - 1), (2, 2 ^ 128 - 1)]) 0x00210301 [] none).src 2 ≠ 0 :=
  ⟨⟨withRegs_lt _, by decide⟩, withRegs_lt _, by decide⟩
theorem witness_ModexpRejectsZeroModulus :
    (running State.reset 0x00210301 [] none).phase = .busy (snap State.reset 0x00210301 [] none) ∧
      (snap State.reset 0x00210301 [] none).src 2 = 0 := by decide
/-- n = 2 (u = 1, t = 0) and n = 561 (u = 35, t = 4: E3). -/
theorem witness_WitnessIsTheStrongProbablePrimeTest :
    ((2 : Nat) ≤ 2 ∧ (2 : Nat) - 1 = 1 * 2 ^ 0 ∧ (1 : Nat) % 2 = 1) ∧
      (2 : Nat) ≤ 561 ∧ (561 : Nat) - 1 = 35 * 2 ^ 4 ∧ (35 : Nat) % 2 = 1 := by decide
/-- n = 2, the least that is tested, and n = 1. -/
theorem witness_MrwReportsTheWitnessTest :
    2 ≤ (snap (withRegs [(0, 2)]) 0x00010002 [] none).src 0 ∧ (snap (withRegs [(0, 1)]) 0x00010002 [] none).src 0 < 2 := by
  decide
/-- n = 1; 2; 3; 4; 5 with k = 0. -/
theorem witness_MrtDefiniteVerdicts :
    (snap (withRegs [(0, 1)]) 0x01000003 [] none).src 0 < 2 ∧ (snap (withRegs [(0, 2)]) 0x01000003 [] none).src 0 = 2 ∧
      (snap (withRegs [(0, 3)]) 0x01000003 [] none).src 0 = 3 ∧
      (3 < (snap (withRegs [(0, 4)]) 0x01000003 [] none).src 0 ∧
        (snap (withRegs [(0, 4)]) 0x01000003 [] none).src 0 % 2 = 0) ∧
      5 ≤ (snap (withRegs [(0, 5)]) 0x00000003 [] none).src 0 ∧
        (snap (withRegs [(0, 5)]) 0x00000003 [] none).src 0 % 2 = 1 ∧ (0 : BitVec 8) = 0 := by decide
/-- 95 §2.6: 5 passes base 3 with k = 1; 2047 passes base 2 and fails base 3 with k = 2. -/
theorem witness_MrtVerdictFromTheDraws :
    (5 ≤ (snap (withRegs [(0, 5)]) 0x01000003 [3] none).src 0 ∧
      (snap (withRegs [(0, 5)]) 0x01000003 [3] none).src 0 % 2 = 1 ∧
      (1 : BitVec 8).toNat ≤ (snap (withRegs [(0, 5)]) 0x01000003 [3] none).draws.length ∧
      ∀ a ∈ (snap (withRegs [(0, 5)]) 0x01000003 [3] none).draws.take (1 : BitVec 8).toNat,
        witness ((snap (withRegs [(0, 5)]) 0x01000003 [3] none).src 0) a = true) ∧
    (snap (withRegs [(0, 2047)]) 0x02000003 [2, 3] none).draws = [2] ++ 3 :: [] ∧
      [2].length < (2 : BitVec 8).toNat ∧
      (∀ d ∈ [2], witness ((snap (withRegs [(0, 2047)]) 0x02000003 [2, 3] none).src 0) d = true) ∧
      witness ((snap (withRegs [(0, 2047)]) 0x02000003 [2, 3] none).src 0) 3 = false := by decide +kernel
/-- n = 5, the least candidate that is tried, with k = 1: before the request, and with it outstanding. -/
theorem witness_MrtAsksForOneBaseATrial :
    5 ≤ (snap (withRegs [(0, 5)]) 0x01000003 [] none).src 0 ∧
      (snap (withRegs [(0, 5)]) 0x01000003 [] none).src 0 % 2 = 1 ∧
      (snap (withRegs [(0, 5)]) 0x01000003 [] none).draws.length < (1 : BitVec 8).toNat ∧
      (∀ a ∈ (snap (withRegs [(0, 5)]) 0x01000003 [] none).draws,
        witness ((snap (withRegs [(0, 5)]) 0x01000003 [] none).src 0) a = true) ∧
      (snap (withRegs [(0, 5)]) 0x01000003 [] none).rngReq = none ∧
      (snap (withRegs [(0, 5)]) 0x01000003 [] (some { lo := 2, hi := 3 })).rngReq ≠ none := by
  refine ⟨by decide, by decide, by decide, ?_, rfl, by decide⟩
  intro a ha; cases ha
/-- Answers at and just past both ends of [2, 3], and an answer nobody asked for. -/
theorem witness_RngAnswersConsumedOrDiscarded :
    (∀ v ∈ [2, 3],
      (at_ (running (withRegs [(0, 5)]) 0x01000003 [] (some { lo := 2, hi := 3 })) (.rng v)).nextEvent = .rng v ∧
      v < 2 ^ Config.vectors.nbits ∧ 2 ≤ v ∧ v ≤ 3) ∧
    (∀ v ∈ [1, 4],
      (at_ (running (withRegs [(0, 5)]) 0x01000003 [] (some { lo := 2, hi := 3 })) (.rng v)).nextEvent = .rng v ∧
      v < 2 ^ Config.vectors.nbits ∧ (v < 2 ∨ 3 < v)) ∧
    (running (withRegs [(0, 5)]) 0x01000003 [] (some { lo := 2, hi := 3 })).phase =
      .busy (snap (withRegs [(0, 5)]) 0x01000003 [] (some { lo := 2, hi := 3 })) ∧
    (at_ State.reset (.rng 2)).nextEvent = .rng 2 ∧ ∀ b, (at_ State.reset (.rng 2)).phase = .busy b → b.rngReq = none := by
  refine ⟨by decide, by decide, rfl, rfl, ?_⟩
  intro b h; cases h
/-- 95 §2.6: n = 9, k = 1, answers 8 and 2. -/
theorem witness_MrtRunDecidesByFirstInRangeAnswers :
    decode (snap (withRegs [(0, 9)]) 0x01000003 [] none).word = .command (.mrt 0 1) ∧
      5 ≤ (snap (withRegs [(0, 9)]) 0x01000003 [] none).src 0 ∧
      (snap (withRegs [(0, 9)]) 0x01000003 [] none).src 0 % 2 = 1 ∧
      (snap (withRegs [(0, 9)]) 0x01000003 [] none).draws = [] ∧
      (snap (withRegs [(0, 9)]) 0x01000003 [] none).rngReq = none ∧ (∀ v ∈ [8, 2], v < 2 ^ Config.vectors.nbits) ∧
      ({ running (withRegs [(0, 9)]) 0x01000003 [] none with
        inputs := .engine :: [8, 2].flatMap (fun v => [.rng v, .engine]) } : State).inputs =
          .engine :: [8, 2].flatMap (fun v => [.rng v, .engine]) ∧
      (1 : BitVec 8).toNat ≤
        ([8, 2].filter fun v => decide (2 ≤ v ∧ v ≤ (snap (withRegs [(0, 9)]) 0x01000003 [] none).src 0 - 2)).length := by
  decide
/-- n = 5 with its request outstanding; the answers 1 and 4 and a STATUS read come. -/
theorem witness_MrtWithoutAnAnswerInRangeStaysBusy :
    let s : State := { running (withRegs [(0, 5)]) 0x01000003 [] (some { lo := 2, hi := 3 }) with
      inputs := [.rng 1, readWord 0x00C, .engine, .rng 4] }
    let b := snap (withRegs [(0, 5)]) 0x01000003 [] (some { lo := 2, hi := 3 })
    s.rst = false ∧ s.phase = .busy b ∧ decode b.word = .command (.mrt 0 1) ∧ 5 ≤ b.src 0 ∧ b.src 0 % 2 = 1 ∧
      b.draws.length < (1 : BitVec 8).toNat ∧ (∀ a ∈ b.draws, witness (b.src 0) a = true) ∧
      b.rngReq = some { lo := 2, hi := b.src 0 - 2 } ∧
      ∀ e ∈ s.inputs, (∀ level, e ≠ .rst level) ∧
        ∀ v, e = .rng v → v % 2 ^ s.cfg.nbits < 2 ∨ b.src 0 - 2 < v % 2 ^ s.cfg.nbits := by
  refine ⟨rfl, rfl, by decide, by decide, by decide, by decide, ?_, by decide, ?_⟩
  · intro a ha; cases ha
  · intro e he
    simp only [List.mem_cons, List.not_mem_nil, or_false] at he
    rcases he with rfl | rfl | rfl | rfl
    · exact ⟨by simp, by rintro v ⟨⟩; decide⟩
    · exact ⟨by simp [readWord], by simp [readWord]⟩
    · exact ⟨by simp, by simp⟩
    · exact ⟨by simp, by rintro v ⟨⟩; decide⟩
/-- 9 fails base 2 and is composite; 2 fails base 0 and divides it; 7 is an odd prime that does not divide 6. -/
theorem witness_WitnessFailureProvesCompositeness :
    (2 ≤ 9 ∧ witness 9 2 = false) ∧ (2 ≤ 2 ∧ witness 2 0 = false) ∧ Nat.Prime 7 ∧ 7 % 2 = 1 ∧ ¬ 7 ∣ 6 := by decide
/-- The prime 5 with k = 0. -/
theorem witness_MrtNeverRejectsAPrime :
    ((withRegs [(0, 5)]).accept 0x00000003).Inv ∧
      ((withRegs [(0, 5)]).accept 0x00000003).phase = .busy ((withRegs [(0, 5)]).snapshot 0x00000003) ∧
      decode ((withRegs [(0, 5)]).snapshot 0x00000003).word = .command (.mrt 0 0) ∧
      (((withRegs [(0, 5)]).snapshot 0x00000003).src 0).Prime ∧
      ∃ t, exec (.mrt 0 0) ((withRegs [(0, 5)]).accept 0x00000003) = .next t ∧ t.phase = .idle :=
  ⟨inv_accept rfl (withRegs_lt _) _, rfl, by decide, by decide, _, exec_busy rfl _, by decide⟩
/-- The prime 5 with k = 1 after the draw 3: the trial has run, and the invariant holds. -/
theorem witness_MrtNeverRejectsAPrime_drawn :
    (running (withRegs [(0, 5)]) 0x01000003 [3] none).Inv ∧
      ∃ t, exec (.mrt 0 1) (running (withRegs [(0, 5)]) 0x01000003 [3] none) = .next t ∧ t.phase = .idle := by
  refine ⟨⟨withRegs_lt _, ?_, ?_, ?_, ?_⟩, _, running_exec .., by decide⟩
  · intro h; cases h
  · intro b h; cases h; exact ⟨rfl, rfl, rfl, rfl⟩
  · intro b h; cases h; exact ⟨rfl, rfl, rfl⟩
  · intro b h; cases h
    refine .inr ⟨0, 1, by decide, by decide, by decide, by decide, by decide, ?_, ?_⟩
    · intro a ha; cases ha
    · intro r hr; cases hr

/-! ### EGCD, CRTSQRT, TAGSEL -/

theorem witness_EgcdFollowsEuclid : 0 < 46 := by decide
/-- 95 §2.7, with the last group that fits. -/
theorem witness_EgcdWritesGcdAndBezoutCoefficients :
    (snap (withRegs [(0, 240), (1, 46)]) 0x00010D04 [] none).InRange Config.vectors ∧ (13 : RegIdx).val ≤ 13 :=
  ⟨withRegs_lt _, by decide⟩
/-- 95 §2.8: p = 7, q = 11, with the last group that fits. -/
theorem witness_CrtSqrtWritesFourCandidates :
    let b := snap (withRegs [(0, 4), (1, 7), (2, 11)]) 0x00210C05 [] none
    (12 : RegIdx).val ≤ 12 ∧ b.src 1 % 4 = 3 ∧ b.src 2 % 4 = 3 ∧ b.src 1 ≠ b.src 2 ∧
      b.src 1 * b.src 2 < 2 ^ Config.vectors.nbits ∧ Nat.gcd (b.src 1) (b.src 2) = 1 := by decide
/-- 95 §2.8, the rows with errors 0x05 to 0x08, and the composite key 15, 7 that passes. -/
theorem witness_CrtSqrtChecksTheKeyInOrder :
    (let b := snap (withRegs [(0, 4), (1, 5), (2, 11)]) 0x00210405 [] none;
      b.src 1 % 4 ≠ 3 ∨ b.src 2 % 4 ≠ 3) ∧
    (let b := snap (withRegs [(0, 4), (1, 7), (2, 7)]) 0x00210405 [] none;
      b.src 1 % 4 = 3 ∧ b.src 2 % 4 = 3 ∧ b.src 1 = b.src 2) ∧
    (let b := snap (withRegs [(0, 4), (1, 0x7fffffffffffffffffffffffffffffff), (2, 3)]) 0x00210405 [] none;
      b.src 1 % 4 = 3 ∧ b.src 2 % 4 = 3 ∧ b.src 1 ≠ b.src 2 ∧ 2 ^ Config.vectors.nbits ≤ b.src 1 * b.src 2) ∧
    (let b := snap (withRegs [(0, 4), (1, 3), (2, 15)]) 0x00210405 [] none;
      b.src 1 % 4 = 3 ∧ b.src 2 % 4 = 3 ∧ b.src 1 ≠ b.src 2 ∧ b.src 1 * b.src 2 < 2 ^ Config.vectors.nbits ∧
        Nat.gcd (b.src 1) (b.src 2) ≠ 1) ∧
    (let b := snap (withRegs [(0, 4), (1, 15), (2, 7)]) 0x00210405 [] none;
      b.src 1 % 4 = 3 ∧ b.src 2 % 4 = 3 ∧ b.src 1 ≠ b.src 2 ∧ b.src 1 * b.src 2 < 2 ^ Config.vectors.nbits ∧
        Nat.gcd (b.src 1) (b.src 2) = 1) := by decide
/-- 95 §2.8: c = 81 = 2² mod 77, p = 7, q = 11. -/
theorem witness_CrtSqrtCandidatesAreSquareRoots :
    let b := snap (withRegs [(0, 81), (1, 7), (2, 11)]) 0x00210C05 [] none
    (12 : RegIdx).val ≤ 12 ∧ (b.src 1).Prime ∧ (b.src 2).Prime ∧ b.src 1 % 4 = 3 ∧ b.src 2 % 4 = 3 ∧
      b.src 1 ≠ b.src 2 ∧ b.src 1 * b.src 2 < 2 ^ Config.vectors.nbits ∧
      b.src 0 % (b.src 1 * b.src 2) = 2 ^ 2 % (b.src 1 * b.src 2) := by decide
/-- 95 §2.9: the tag at index 3 with W = 4, and W = 64 with the last group that fits. -/
theorem witness_TagselRecoversFirstTaggedCandidate :
    (let s := withTag 4 0xA [(4, 25), (5, 52), (6, 3), (7, 74)];
      let b := snap s 0x00004806 [] none;
      b.InRange Config.vectors ∧ (4 : RegIdx).val ≤ 12 ∧ 1 ≤ b.sw.toNat ∧ b.sw.toNat ≤ 64 ∧
        b.sw.toNat < Config.vectors.nbits ∧ b.sh.toNat < 2 ^ b.sw.toNat ∧ 3 < 4 ∧
        b.src (member 4 3) % 2 ^ b.sw.toNat = b.sh.toNat ∧
        ∀ k, k < 3 → b.src (member 4 k) % 2 ^ b.sw.toNat ≠ b.sh.toNat) ∧
    (let s := withTag 64 5 [(12, 0x10000000000000005)];
      let b := snap s 0x0000C806 [] none;
      (12 : RegIdx).val ≤ 12 ∧ b.sw.toNat = 64 ∧ b.sw.toNat < Config.vectors.nbits ∧ b.sh.toNat < 2 ^ b.sw.toNat ∧
        b.src (member 12 0) % 2 ^ b.sw.toNat = b.sh.toNat) := by
  refine ⟨⟨withRegs_lt _, ?_⟩, ?_⟩ <;> decide +kernel
/-- 95 §2.9: W = 0; W = 65; h = 2^W; no match. W ≥ NBITS with W ≤ 64 needs NBITS = 64 (R8), W = 64. -/
theorem witness_TagselErrors :
    (snap (withTag 0 0 []) 0x00004806 [] none).sw.toNat < 1 ∧ 64 < (snap (withTag 65 0 []) 0x00004806 [] none).sw.toNat ∧
      (32 * 2 ≤ (snap (withTag 64 0 []) 0x00004806 [] none).sw.toNat ∧
        (snap (withTag 64 0 []) 0x00004806 [] none).sw.toNat ≤ 64) ∧
      2 ^ (snap (withTag 4 0x10 []) 0x00004806 [] none).sw.toNat ≤ (snap (withTag 4 0x10 []) 0x00004806 [] none).sh.toNat ∧
      (let b := snap (withTag 4 0xA [(4, 17), (5, 34), (6, 51), (7, 68)]) 0x00004806 [] none;
        1 ≤ b.sw.toNat ∧ b.sw.toNat ≤ 64 ∧ b.sw.toNat < Config.vectors.nbits ∧ b.sh.toNat < 2 ^ b.sw.toNat ∧
          ∀ k, k < 4 → b.src (member 4 k) % 2 ^ b.sw.toNat ≠ b.sh.toNat) := by decide +kernel
/-- What CRTSQRT leaves on c = 53, p = 7, q = 11. -/
def afterRoots : State :=
  (running (withRegs [(0, 53), (1, 7), (2, 11)]) 0x00210405 [] none).finish
    (bodyOf (.crtsqrt 4 0 1 2) Config.vectors (snap (withRegs [(0, 53), (1, 7), (2, 11)]) 0x00210405 [] none))
/-- 95 §2.10: m = 3 with W = 4, h = 0xA: M = 58, c = 53, the tag at index 0. -/
theorem witness_DecryptionRecoversThePlaintext :
    let b₁ := snap (withRegs [(0, 53), (1, 7), (2, 11)]) 0x00210405 [] none
    let b₂ := snap { afterRoots with tagw := 4, taghLo := 0xA } 0x00004806 [] none
    (4 : RegIdx).val ≤ 12 ∧ (b₁.src 1).Prime ∧ (b₁.src 2).Prime ∧ b₁.src 1 % 4 = 3 ∧ b₁.src 2 % 4 = 3 ∧
      b₁.src 1 ≠ b₁.src 2 ∧ b₁.src 1 * b₁.src 2 < 2 ^ Config.vectors.nbits ∧ 1 ≤ b₂.sw.toNat ∧ b₂.sw.toNat ≤ 64 ∧
      b₂.sw.toNat < Config.vectors.nbits ∧ b₂.sh.toNat < 2 ^ b₂.sw.toNat ∧
      3 * 2 ^ b₂.sw.toNat + b₂.sh.toNat < b₁.src 1 * b₁.src 2 ∧
      b₁.src 0 = (3 * 2 ^ b₂.sw.toNat + b₂.sh.toNat) ^ 2 % (b₁.src 1 * b₁.src 2) ∧
      exec (.crtsqrt 4 0 1 2) (running (withRegs [(0, 53), (1, 7), (2, 11)]) 0x00210405 [] none) = .next afterRoots ∧
      (∀ k, k < 4 → b₂.src (member 4 k) = afterRoots.reg (member 4 k)) ∧
      ∀ k, k < 4 → afterRoots.reg (member 4 k) % 2 ^ b₂.sw.toNat = b₂.sh.toNat →
        ∃ k', k' ≤ k ∧ afterRoots.reg (member 4 k') = 3 * 2 ^ b₂.sw.toNat + b₂.sh.toNat := by
  refine ⟨by decide, by decide, by decide, by decide, by decide, by decide, by decide, by decide, by decide, by decide,
    by decide, by decide, by decide, running_exec .., ?_, ?_⟩
  · intro k _; rfl
  · intro k _ _; exact ⟨0, Nat.zero_le k, by decide⟩

/-! ### The bus -/

theorem witness_HostReadsChangeNothing :
    (at_ State.reset (readWord 0x2FFC)).rst = false ∧
      (at_ State.reset (readWord 0x2FFC)).nextEvent = .bus (.read 0x2FFC .word) ∧ (0x2FFC : Offset).toNat % 4 = 0 := by
  decide
/-- 95 §2.2: a byte access at 0x000 and a word access at 0x1002. -/
theorem witness_OnlyAlignedWordsAreAccepted :
    ((at_ State.reset (.bus (.read 0x000 .byte))).nextEvent = .bus (.read 0x000 .byte) ∧ AccessSize.byte ≠ .word) ∧
      (at_ State.reset (.bus (.write 0x1002 .word 1))).nextEvent = .bus (.write 0x1002 .word 1) ∧
      (0x1002 : Offset).toNat % 4 ≠ 0 ∧ State.reset.rst = false := by decide
theorem witness_LimbReadsAreSlices : 127 < 128 := by decide
theorem witness_RegisterIsTheSumOfItsLimbs :
    (withRegs [(15, 2 ^ 128 - 1)]).reg 15 < 2 ^ (withRegs [(15, 2 ^ 128 - 1)]).cfg.nbits := withRegs_lt _ _
/-- The four ends of the two reserved ranges, the last with a write while busy. -/
theorem witness_ReservedOffsetsReadZeroAndIgnoreWrites :
    (0x0020 ≤ (0x0020 : Offset).toNat ∧ (0x0FFC : Offset).toNat ≤ 0x0FFF ∧ 0x3000 ≤ (0x3000 : Offset).toNat) ∧
      (0x3FFC : Offset).toNat % 4 = 0 ∧ 0x3000 ≤ (0x3FFC : Offset).toNat ∧
      (at_ State.reset (readWord 0x0020)).rst = false ∧
      (at_ State.reset (readWord 0x0020)).nextEvent = .bus (.read 0x0020 .word) ∧
      (at_ (running State.reset 0 [] none) (writeWord 0x3FFC 1)).rst = false ∧
      (at_ (running State.reset 0 [] none) (writeWord 0x3FFC 1)).nextEvent = .bus (.write 0x3FFC .word 1) := by decide
theorem witness_IdAndParamAreConstants :
    (at_ State.reset (writeWord 0x004 1)).rst = false ∧
      (at_ State.reset (writeWord 0x004 1)).nextEvent = .bus (.write 0x004 .word 1) ∧
      ∃ t, step (at_ State.reset (.rst true)) = .next t := ⟨rfl, rfl, _, rfl⟩
/-- The last limb of R15 at NWORDS = 4, the first limb past it, and the first while busy. -/
theorem witness_LimbWritesReplaceOneLimb :
    ((at_ State.reset (writeWord 0x2E0C 7)).nextEvent =
        .bus (.write (BitVec.ofNat 14 (0x1000 + 0x200 * (15 : RegIdx).val + 4 * 3)) .word 7) ∧
      (at_ State.reset (writeWord 0x2E0C 7)).phase = .idle ∧ 3 < Config.vectors.nwords ∧
      State.reset.reg 15 < 2 ^ State.reset.cfg.nbits) ∧
    ((at_ State.reset (writeWord 0x2E10 7)).nextEvent =
        .bus (.write (BitVec.ofNat 14 (0x1000 + 0x200 * (15 : RegIdx).val + 4 * 4)) .word 7) ∧
      Config.vectors.nwords ≤ 4) ∧
    (at_ (running State.reset 0 [] none) (writeWord 0x1000 7)).nextEvent =
        .bus (.write (BitVec.ofNat 14 (0x1000 + 0x200 * (0 : RegIdx).val + 4 * 0)) .word 7) ∧
      (at_ (running State.reset 0 [] none) (writeWord 0x1000 7)).phase = .busy (snap State.reset 0 [] none) := by decide
theorem witness_CtrlWriteSetsIeAndLock :
    (at_ (running State.reset 0 [] none) (writeWord 0x008 3)).rst = false ∧
      (at_ (running State.reset 0 [] none) (writeWord 0x008 3)).nextEvent = .bus (.write 0x008 .word 3) := by decide
theorem witness_StatusWriteClearsWrittenOnes :
    (at_ State.reset (writeWord 0x00C 0x1A)).rst = false ∧
      (at_ State.reset (writeWord 0x00C 0x1A)).nextEvent = .bus (.write 0x00C .word 0x1A) := by decide
/-- Idle and unlocked; locked; busy. -/
theorem witness_TagWritesStoreOnlyIdleAndUnlocked :
    ((at_ State.reset (writeWord 0x014 0x1FF)).nextEvent = .bus (.write 0x014 .word 0x1FF) ∧
      (at_ State.reset (writeWord 0x014 0x1FF)).busy = false ∧ (at_ State.reset (writeWord 0x014 0x1FF)).lock = false) ∧
    (at_ (State.reset.writeCtrl 2) (writeWord 0x018 1)).lock = true ∧
    (at_ (running State.reset 0 [] none) (writeWord 0x01C 1)).busy = true := by decide
theorem witness_LoadRegisterWritesTheWholeValue :
    ({ State.reset with inputs := ldr Config.vectors 15 (2 ^ 128 - 1) ++ [] } : State).inputs =
        ldr State.reset.cfg 15 (2 ^ 128 - 1) ++ [] ∧
      State.reset.rst = false ∧ State.reset.phase = .idle ∧ State.reset.reg 15 < 2 ^ State.reset.cfg.nbits ∧
      2 ^ 128 - 1 < 2 ^ State.reset.cfg.nbits := by decide

/-! ### Whole-machine rules and reset -/

/-- A tag write to a locked block that executes. -/
theorem witness_OnlyResetUnlocksOrAbandons :
    let s := at_ (running (State.reset.writeCtrl 2) 0 [] none) (writeWord 0x014 8)
    (∃ t, step s = .next t) ∧ (∀ level, s.nextEvent ≠ .rst level) ∧ s.lock = true ∧
      s.phase = .busy (snap (State.reset.writeCtrl 2) 0 [] none) :=
  ⟨⟨_, rfl⟩, (fun _ h => by cases h), rfl, rfl⟩
theorem witness_StickyBitsSetByDroppedWrites :
    (∃ t, step (at_ (running State.reset 0 [] none) (writeWord 0x2FFC 1)) = .next t) ∧
      (∀ level, (at_ (running State.reset 0 [] none) (writeWord 0x2FFC 1)).nextEvent ≠ .rst level) ∧
      (at_ State.reset (.rst true)).nextEvent = .rst true ∧
      (at_ { State.reset with rst := true } (.rst false)).nextEvent = .rst false ∧
      ({ State.reset with rst := true } : State).rst = true :=
  ⟨⟨_, rfl⟩, (fun _ h => by cases h), rfl, rfl, rfl⟩
/-- NOP's neighbour in effect: MODEXP changes R3 from 0 to 445. -/
theorem witness_RegistersChangeOnlyByWriteCompletionOrReset :
    ∃ t, step (running (withRegs [(0, 4), (1, 13), (2, 497)]) 0x00210301 [] none) = .next t ∧
      t.reg 3 ≠ (running (withRegs [(0, 4), (1, 13), (2, 497)]) 0x00210301 [] none).reg 3 := ⟨_, rfl, by decide⟩
/-- A completion; a CTRL write; a STATUS write that clears DONE; acceptance; both edges of reset. -/
theorem witness_IrqFollowsDoneAndEnable :
    (∃ t, step (running State.reset 0 [] none) = .next t ∧ t.phase = .idle) ∧
      (at_ State.reset (writeWord 0x008 1)).nextEvent = .bus (.write 0x008 .word 1) ∧
      ((at_ State.reset (writeWord 0x00C 2)).nextEvent = .bus (.write 0x00C .word 2) ∧ (2 : Word).toNat / 2 % 2 = 1) ∧
      ((at_ State.reset (issue .nop)).nextEvent = .bus (.write 0x010 .word 0) ∧ State.reset.phase = .idle) ∧
      (at_ State.reset (.rst true)).nextEvent = .rst true ∧
      (at_ { State.reset with rst := true } (.rst false)).nextEvent = .rst false :=
  ⟨⟨_, rfl, rfl⟩, rfl, ⟨rfl, by decide⟩, ⟨rfl, rfl⟩, rfl, rfl⟩
/-- Reset of a busy block, release of the pin, and an answer to a withdrawn request. -/
theorem witness_ResetRestoresEveryValue :
    (at_ (running State.reset 0 [] none) (.rst true)).nextEvent = .rst true ∧
      ((at_ { State.reset with rst := true } (.rst false)).nextEvent = .rst false ∧
        (at_ { State.reset with rst := true } (.rst false)).rst = true) ∧
      (at_ State.reset (.rng 2)).phase = .idle ∧ (at_ State.reset (.rng 2)).nextEvent = .rng 2 := ⟨rfl, ⟨rfl, rfl⟩, rfl, rfl⟩
theorem witness_NothingTakesEffectDuringReset :
    ({ State.reset with rst := true } : State).rst = true ∧
      ({ State.reset with rst := true } : State).nextEvent = .engine ∧
      (at_ { State.reset with rst := true } (.rng 1)).nextEvent = .rng 1 ∧
      (at_ { State.reset with rst := true } (readWord 0)).nextEvent = .bus (.read 0 .word) := ⟨rfl, rfl, rfl, rfl⟩
/-- A busy state of the invariant, and its step. -/
theorem witness_StepKeepsTheInvariant :
    ((withRegs [(0, 97)]).accept 0x64000003).Inv ∧ ∃ t, step ((withRegs [(0, 97)]).accept 0x64000003) = .next t :=
  ⟨inv_accept rfl (withRegs_lt _) _, _, rfl⟩

/-! ### Host programs -/

/-- A block ready for `DECRYPT R8, R0, R1, R2, R4` with W = 4. -/
def readyToDecrypt (h : BitVec 64) (c p q : Nat) : State := withTag 4 h [(0, c), (1, p), (2, q)]

theorem exec_crtsqrt_next (s : State) (w : Word) (rt rc rp rq : RegIdx) :
    ∃ t, exec (.crtsqrt rt rc rp rq) (s.accept w) = .next t := ⟨_, exec_busy rfl _⟩

/-- A `WAIT` on a busy block and on an idle one; `DECRYPT` has an expansion, its block is idle with registers in range,
and CRTSQRT answers a next state. -/
theorem witness_DecryptProgramWaitsAndStopsOnErrors :
    (running State.reset 0 [] none).rst = false ∧ State.reset.rst = false ∧
      (readyToDecrypt 0xA 53 7 11).rst = false ∧ (readyToDecrypt 0xA 53 7 11).phase = .idle ∧
      (∀ i, (readyToDecrypt 0xA 53 7 11).reg i < 2 ^ (readyToDecrypt 0xA 53 7 11).cfg.nbits) ∧
      (decrypt 8 0 1 2 4).isSome = true ∧ (decrypt 8 0 1 2 12).isSome = true ∧
      ∃ t, exec (.crtsqrt 4 0 1 2) ((readyToDecrypt 0xA 53 7 11).accept (encode (.crtsqrt 4 0 1 2))) = .next t :=
  ⟨rfl, rfl, rfl, rfl, withRegs_lt _, by decide, by decide, exec_crtsqrt_next ..⟩
/-- The three ends: a key error with p = 5 (95 §2.8); the tag 0xA at index 0 (95 §2.10); no candidate with the tag 0xB. -/
theorem witness_DecryptProgram_ends :
    (∃ t, exec (.crtsqrt 4 0 1 2) ((readyToDecrypt 0xA 4 5 11).accept (encode (.crtsqrt 4 0 1 2))) = .next t ∧
      t.errcode ≠ .ok) ∧
    (∃ t, exec (.crtsqrt 4 0 1 2) ((readyToDecrypt 0xA 53 7 11).accept (encode (.crtsqrt 4 0 1 2))) = .next t ∧
      t.errcode = .ok ∧ t.reg (member 4 0) % 2 ^ 4 = 0xA) ∧
    ((1 ≤ (readyToDecrypt 0xA 53 7 11).tagw.toNat ∧ (readyToDecrypt 0xA 53 7 11).tagw.toNat ≤ 64) ∧
      (readyToDecrypt 0xA 53 7 11).tagw.toNat < (readyToDecrypt 0xA 53 7 11).cfg.nbits ∧
      (readyToDecrypt 0xA 53 7 11).tagh.toNat < 2 ^ (readyToDecrypt 0xA 53 7 11).tagw.toNat ∧
      (readyToDecrypt 0xB 53 7 11).tagh.toNat < 2 ^ (readyToDecrypt 0xB 53 7 11).tagw.toNat) ∧
    ∃ t, exec (.crtsqrt 4 0 1 2) ((readyToDecrypt 0xB 53 7 11).accept (encode (.crtsqrt 4 0 1 2))) = .next t ∧
      t.errcode = .ok ∧ ∀ k, k < 4 → t.reg (member 4 k) % 2 ^ 4 ≠ 0xB := by
  refine ⟨⟨_, exec_busy rfl _, ?_⟩, ⟨_, exec_busy rfl _, ?_⟩, ?_, _, exec_busy rfl _, ?_⟩ <;> decide +kernel
/-- 95 §2.10, m = 3, and the foreign tag 0xB: what `DECRYPT` leaves in R8 and STATUS. -/
theorem test_decrypt_runs :
    ran (readyToDecrypt 0xA 53 7 11) ((decrypt 8 0 1 2 4).getD [])
        [.host, .host, .event .engine, .host, .host, .host, .host, .event .engine, .host]
        (fun p => (p.program, p.block.reg 8, p.lastRead)) = some ([], 3, 0x00000006) ∧
      ran (readyToDecrypt 0xB 53 7 11) ((decrypt 8 0 1 2 4).getD [])
        [.host, .host, .event .engine, .host, .host, .host, .host, .event .engine, .host]
        (fun p => (p.program, p.block.reg 8, p.lastRead)) = some ([], 0, 0x00000A02) := by decide +kernel

end Sys2Proof.Tests
end

section
/-! SUPPORT. The operations over the state against the parameters, the registers and the sticky bits: what a bus write
and a step leave unchanged, and what changes each (R21, R31, R32, R40, R41). -/

namespace Sys2Proof.Machine

/-! ### The built block's parameters (R8) -/

@[simp] theorem limbWrite_cfg (s : State) (off : Offset) (v : Word) : (s.limbWrite off v).cfg = s.cfg := by
  unfold State.limbWrite
  split
  · rfl
  · split <;> rfl

@[simp] theorem writeCmd_cfg (s : State) (v : Word) : (s.writeCmd v).cfg = s.cfg := by
  unfold State.writeCmd
  split <;> rfl

theorem writeTag_cfg {s stored : State} (h : stored.cfg = s.cfg) : (s.writeTag stored).cfg = s.cfg := by
  unfold State.writeTag
  split
  · rfl
  · exact h

@[simp] theorem storeWord_cfg (s : State) (off : Offset) (v : Word) : (s.storeWord off v).cfg = s.cfg := by
  rcases storeWord_cases s off v with ⟨-, h⟩ | ⟨-, h⟩ | ⟨-, h⟩ | ⟨-, h⟩ | ⟨-, h⟩ | ⟨-, h⟩ | ⟨-, h⟩ |
    ⟨-, -, -, -, -, -, -, h⟩ <;> rw [h]
  · exact limbWrite_cfg ..
  · rfl
  · rfl
  · exact writeCmd_cfg ..
  · exact writeTag_cfg rfl
  · exact writeTag_cfg rfl
  · exact writeTag_cfg rfl

theorem driveRst_of_reset {s : State} {l : Bool} (h : l = true ∨ s.rst = true) :
    s.driveRst l = { State.resetOf s.cfg with rst := l, inputs := s.inputs, outputs := s.outputs } :=
  if_pos (by simpa using h)

theorem driveRst_of_released {s : State} (h : s.rst = false) : s.driveRst false = s := if_neg (by simp [h])

@[simp] theorem driveRst_cfg (s : State) (l : Bool) : (s.driveRst l).cfg = s.cfg := by
  unfold State.driveRst
  split <;> rfl

/-- No step, reset included, changes the parameters of the built block. -/
theorem step_cfg {s t : State} (h : step s = .next t) : t.cfg = s.cfg := by
  rcases step_cases h with ⟨l, -, rfl⟩ | ⟨o, rfl⟩ | rfl | ⟨off, v, -, -, -, rfl⟩ | ⟨b, r, v, -, -, -, -, -, -, rfl⟩ |
    ⟨b, -, -, -, ⟨i, -, hx⟩ | ⟨e, -, rfl⟩⟩
  · exact driveRst_cfg ..
  · rfl
  · rfl
  · exact storeWord_cfg ..
  · rfl
  · obtain ⟨hc, -⟩ := exec_rest hx
    exact hc
  · rfl

/-! ### Operand registers (R21, R104) -/

theorem reg_writeTag {s stored : State} (h : stored.regs = s.regs) (j : RegIdx) :
    (s.writeTag stored).reg j = s.reg j := by
  unfold State.writeTag
  split
  · rfl
  · rw [State.reg, h]; rfl

@[simp] theorem reg_writeCmd (s : State) (v : Word) (j : RegIdx) : (s.writeCmd v).reg j = s.reg j := by
  unfold State.writeCmd
  split <;> rfl

/-- A limb write changes one register at most, and none while busy (R58). -/
theorem reg_limbWrite_eq {s : State} {off : Offset} {j : RegIdx} (h : s.busy = true ∨ winReg off ≠ j) (v : Word) :
    (s.limbWrite off v).reg j = s.reg j := by
  unfold State.limbWrite
  split
  · rfl
  · rename_i hb
    split
    · exact (getElem_writeReg ..).trans (if_neg fun e => h.elim hb fun hj => hj e.symm)
    · rfl

/-- A bus write changes R[j] only as an idle write into R[j]'s part of the window. -/
theorem reg_storeWord_ne {s : State} {off : Offset} {v : Word} {j : RegIdx} (h : (s.storeWord off v).reg j ≠ s.reg j) :
    inWindow off = true ∧ s.busy = false ∧ winReg off = j := by
  rcases storeWord_cases s off v with ⟨hw, e⟩ | ⟨-, e⟩ | ⟨-, e⟩ | ⟨-, e⟩ | ⟨-, e⟩ | ⟨-, e⟩ | ⟨-, e⟩ |
    ⟨-, -, -, -, -, -, -, e⟩ <;> rw [e] at h
  · refine ⟨hw, ?_, ?_⟩
    · by_contra hb
      exact h (reg_limbWrite_eq (.inl (by simpa using hb)) v)
    · by_contra hj
      exact h (reg_limbWrite_eq (.inr hj) v)
  · exact absurd rfl h
  · exact absurd rfl h
  · exact (h (reg_writeCmd ..)).elim
  · exact (h (reg_writeTag (by rfl) j)).elim
  · exact (h (reg_writeTag (by rfl) j)).elim
  · exact (h (reg_writeTag (by rfl) j)).elim
  · exact absurd rfl h

/-- The offsets of R[j]'s part of the window (R57). -/
theorem winReg_bounds {off : Offset} (h : inWindow off = true) :
    0x1000 + 0x200 * (winReg off).val ≤ off.toNat ∧ off.toNat < 0x1000 + 0x200 * ((winReg off).val + 1) := by
  obtain ⟨h1, h2⟩ := (inWindow_iff off).1 h
  rw [winReg, Fin.val_ofNat]
  omega

/-- A turn of the engine changes only the command's destinations. -/
theorem exec_reg_eq {s t : State} {i : Instr} {j : RegIdx} (h : exec i s = .next t) (hj : j ∉ dests i) :
    t.reg j = s.reg j := by
  rcases exec_next_cases h with ⟨e, -, hf⟩ | ⟨f, hs⟩ | ⟨n, k, b, r, -, -, -, ⟨-, rfl⟩ | ⟨-, rfl⟩⟩
  · exact hf.regs j
  · exact hs.others j hj
  · rfl
  · rfl

/-- A turn of the engine that changes a register is a successful completion. -/
theorem exec_reg_ne {s t : State} {i : Instr} {j : RegIdx} (h : exec i s = .next t) (hj : t.reg j ≠ s.reg j) :
    j ∈ dests i ∧ t.errcode = .ok ∧ t.phase = .idle := by
  refine ⟨by_contra fun hn => hj (exec_reg_eq h hn), ?_⟩
  rcases exec_next_cases h with ⟨e, -, hf⟩ | ⟨f, hs⟩ | ⟨n, k, b, r, -, -, -, ⟨-, rfl⟩ | ⟨-, rfl⟩⟩
  · exact absurd (hf.regs j) hj
  · exact ⟨hs.errcode, hs.idle⟩
  · exact absurd rfl hj
  · exact absurd rfl hj

/-! ### The sticky bits (R40, R41) -/

theorem ne_of_inWindow {off n : Offset} (h : inWindow off = true) (hn : n.toNat < 0x1000) : off ≠ n := by
  rintro rfl
  have := ((inWindow_iff off).1 h).1
  omega

theorem storeWord_busyerr_iff (s : State) (off : Offset) (v : Word) :
    (s.storeWord off v).busyerr = true ↔
      (s.busyerr = true ∧ ¬ (off = 0x00C ∧ v.toNat / 2 ^ 3 % 2 = 1)) ∨
      (s.busy = true ∧
        (off = 0x010 ∨ off = 0x014 ∨ off = 0x018 ∨ off = 0x01C ∨ 0x1000 ≤ off.toNat ∧ off.toNat ≤ 0x2FFF)) := by
  rw [← inWindow_iff]
  rcases storeWord_cases s off v with ⟨hw, e⟩ | ⟨rfl, e⟩ | ⟨rfl, e⟩ | ⟨rfl, e⟩ | ⟨rfl, e⟩ | ⟨rfl, e⟩ | ⟨rfl, e⟩ |
    ⟨hw, -, h1, h2, h3, h4, h5, e⟩ <;> rw [e]
  · simp [(limbWrite_sticky s off v).1, hw, ne_of_inWindow hw]
  · simp [inWindow]
  · rw [writeStatus_busyerr, getLsbD_eq]
    simp [inWindow]
  · simp [(writeCmd_sticky s v).1]
  · simp [(writeTag_sticky s { s with tagw := v.extractLsb' 0 8 } rfl rfl).1]
  · simp [(writeTag_sticky s { s with taghLo := v } rfl rfl).1]
  · simp [(writeTag_sticky s { s with taghHi := v } rfl rfl).1]
  · simp only [hw, h1, h2, h3, h4, h5, false_and, not_false_eq_true, and_true, Bool.false_eq_true, or_self, and_false,
      or_false]

theorem storeWord_lockerr_iff (s : State) (off : Offset) (v : Word) :
    (s.storeWord off v).lockerr = true ↔
      (s.lockerr = true ∧ ¬ (off = 0x00C ∧ v.toNat / 2 ^ 4 % 2 = 1)) ∨
      (s.lock = true ∧ (off = 0x014 ∨ off = 0x018 ∨ off = 0x01C)) := by
  rcases storeWord_cases s off v with ⟨hw, e⟩ | ⟨rfl, e⟩ | ⟨rfl, e⟩ | ⟨rfl, e⟩ | ⟨rfl, e⟩ | ⟨rfl, e⟩ | ⟨rfl, e⟩ |
    ⟨hw, -, h1, h2, h3, h4, h5, e⟩ <;> rw [e]
  · simp [(limbWrite_sticky s off v).2, ne_of_inWindow hw]
  · simp
  · rw [writeStatus_lockerr, getLsbD_eq]
    simp
  · simp [(writeCmd_sticky s v).2]
  · simp [(writeTag_sticky s { s with tagw := v.extractLsb' 0 8 } rfl rfl).2]
  · simp [(writeTag_sticky s { s with taghLo := v } rfl rfl).2]
  · simp [(writeTag_sticky s { s with taghHi := v } rfl rfl).2]
  · simp only [h1, h3, h4, h5, false_and, not_false_eq_true, and_true, or_self, and_false, or_false]

/-- A step that answers an aligned word write has stored it: the pin is released. -/
theorem step_write_inv {s t : State} {off : Offset} {v : Word} (h : step s = .next t)
    (he : s.nextEvent = .bus (.write off .word v)) (ha : off.toNat % 4 = 0) :
    t = (s.pop.storeWord off v).emit (.writeResp .okay) := by
  cases hr : s.rst with
  | false => rw [step_write hr he ha] at h; cases h; rfl
  | true => rw [step_of_bus he, State.hostTurn, pop_rst, hr] at h; cases h

/-- A step that is neither reset nor an aligned word write keeps both sticky bits. -/
theorem step_sticky_kept {s t : State} (h : step s = .next t) (hrst : ∀ l, s.nextEvent ≠ .rst l)
    (hw : ∀ (off : Offset) (v : Word), s.nextEvent = .bus (.write off .word v) → off.toNat % 4 ≠ 0) :
    t.busyerr = s.busyerr ∧ t.lockerr = s.lockerr := by
  rcases step_cases h with ⟨l, he, -⟩ | ⟨o, rfl⟩ | rfl | ⟨off, v, -, he, ha, -⟩ | ⟨b, r, v, -, -, -, -, -, -, rfl⟩ |
    ⟨b, -, -, -, ⟨i, -, hx⟩ | ⟨e, -, rfl⟩⟩
  · exact absurd he (hrst l)
  · exact ⟨rfl, rfl⟩
  · exact ⟨rfl, rfl⟩
  · exact absurd ha (hw off v he)
  · exact ⟨rfl, rfl⟩
  · obtain ⟨-, -, -, -, hb, hl, -⟩ := exec_rest hx
    exact ⟨hb, hl⟩
  · exact ⟨rfl, rfl⟩

end Sys2Proof.Machine
end

section
/-! SUPPORT. Each kind of step against the invariant (R20, R43, R72, R101, R109, R134, R200). -/

namespace Sys2Proof.Machine

/-! ### RNG traffic (R72 to R74, R132, R134) -/

/-- An answer in the range of the outstanding request keeps the traffic legal. -/
theorem rngLegal_consume {b : Busy} {r : RngReq} {v : Nat} (h : b.RngLegal) (hr : b.rngReq = some r) (h1 : r.lo ≤ v)
    (h2 : v ≤ r.hi) : Busy.RngLegal { b with draws := b.draws ++ [v], rngReq := none } := by
  rcases h with ⟨-, hn⟩ | ⟨rs1, imm, hd, h5, hodd, hrange, -, -, hreq⟩
  · rw [hn] at hr; cases hr
  · obtain ⟨rfl, hlt, hpass⟩ := hreq r hr
    refine .inr ⟨rs1, imm, hd, h5, hodd, ?_, ?_, ?_, fun r h => nomatch h⟩
    · intro a ha
      rcases List.mem_append.1 ha with ha | ha
      · exact hrange a ha
      · obtain rfl := List.mem_singleton.1 ha
        exact ⟨h1, h2⟩
    · rw [List.length_append]; exact hlt
    · rw [List.dropLast_concat]; exact hpass

/-- Every draw so far lies in `[2, n − 2]` for the candidate n of the MRT being run. -/
theorem rngLegal_draws {b : Busy} {n : RegIdx} {k : BitVec 8} (h : b.RngLegal) (hd : decode b.word = .command (.mrt n k)) :
    ∀ a ∈ b.draws, 2 ≤ a ∧ a ≤ b.src n - 2 := by
  rcases h with ⟨hnil, -⟩ | ⟨rs1, imm, hd', -, -, hrange, -⟩
  · rw [hnil]; exact fun a ha => nomatch ha
  · rw [hd] at hd'; cases hd'
    exact hrange

/-- The request with which MRT's body ends is legal. -/
theorem rngLegal_request {b : Busy} {n : RegIdx} {k : BitVec 8} {r : RngReq} (h : b.RngLegal)
    (hd : decode b.word = .command (.mrt n k)) (hx : mrtBody (b.src n) k.toNat b.draws = .draw r) :
    Busy.RngLegal { b with rngReq := some r } := by
  obtain ⟨h5, hodd, hr, hlt, hpass⟩ := mrtBody_draw_inv _ _ _ _ hx
  refine .inr ⟨n, k, hd, h5, hodd, rngLegal_draws (b := b) h hd, hlt.le, fun a ha => hpass a (List.mem_of_mem_dropLast ha), ?_⟩
  rintro q ⟨⟩
  exact ⟨hr, hlt, hpass⟩

/-! ### Operations -/

/-- CTRL, the sticky bits and a cleared DONE do not matter to the invariant. -/
theorem inv_setFlags {s : State} (hi : s.Inv) (hr : s.rst = false) (ie lock done busyerr lockerr : Bool)
    (hd : s.done = false → done = false) :
    State.Inv { s with ie := ie, lock := lock, done := done, busyerr := busyerr, lockerr := lockerr } where
  regs_lt := hi.regs_lt
  in_reset h := by rw [hr] at h; cases h
  snapshot := hi.snapshot
  status b hb := by
    obtain ⟨h1, h2⟩ := hi.status b hb
    exact ⟨hd h1, h2⟩
  rng := hi.rng

/-- RNG traffic alone: the invariant asks only that it be legal. -/
theorem inv_setRng {s : State} {b : Busy} (hi : s.Inv) (hr : s.rst = false) (hb : s.phase = .busy b) (ds : List Nat)
    (q : Option RngReq) (h : Busy.RngLegal { b with draws := ds, rngReq := q }) :
    State.Inv { s with phase := .busy { b with draws := ds, rngReq := q } } where
  regs_lt := hi.regs_lt
  in_reset h := by rw [hr] at h; cases h
  snapshot b' h' := by cases h'; exact hi.snapshot b hb
  status b' _ := hi.status b hb
  rng b' h' := by cases h'; exact h

theorem inv_pop {s : State} (hi : s.Inv) : s.pop.Inv := inv_congr hi rfl

theorem inv_emit {s : State} (hi : s.Inv) (o : Output) : (s.emit o).Inv := inv_congr hi rfl

theorem reset_reg_lt (c : Config) (i : RegIdx) : (State.resetOf c).reg i < 2 ^ c.nbits := by
  rw [reset_reg]
  positivity

theorem inv_driveRst {s : State} (hi : s.Inv) (l : Bool) : (s.driveRst l).Inv := by
  cases l with
  | true =>
    rw [driveRst_of_reset (.inl rfl)]
    exact { regs_lt := reset_reg_lt s.cfg, in_reset := fun _ => rfl, snapshot := fun b h => (nomatch h)
            status := fun b h => (nomatch h), rng := fun b h => (nomatch h) }
  | false =>
    cases hr : s.rst with
    | true => rw [driveRst_of_reset (.inr hr)]; exact inv_of_idle rfl rfl (reset_reg_lt s.cfg)
    | false => rw [driveRst_of_released hr]; exact hi

theorem inv_complete {s : State} (hi : s.Inv) (hr : s.rst = false) (e : ErrCode) (f : Bool) (ws : List (RegIdx × Nat)) :
    (s.complete e f ws).Inv := by
  refine inv_of_idle hr rfl fun i => ?_
  rw [State.reg, complete_regs]
  split
  · exact getElem_commit_lt _ ws s.regs hi.regs_lt i
  · exact hi.regs_lt i

/-! ### Turns -/

theorem inv_limbWrite {s : State} (hi : s.Inv) (hr : s.rst = false) (off : Offset) (v : Word) :
    (s.limbWrite off v).Inv := by
  cases hp : s.phase with
  | busy b =>
    rw [limbWrite_busy hp]
    exact inv_setFlags hi hr _ _ _ true _ id
  | idle =>
    rcases Nat.lt_or_ge (winLimb off) s.cfg.nwords with hw | hw
    · rw [limbWrite_idle hp _ _ hw]
      refine inv_of_idle hr hp fun i => ?_
      rw [State.reg, getElem_writeReg]
      split
      · exact Nat.mod_lt _ (by positivity)
      · exact hi.regs_lt i
    · rw [limbWrite_past hp _ _ hw]; exact hi

theorem inv_writeCmd {s : State} (hi : s.Inv) (hr : s.rst = false) (v : Word) : (s.writeCmd v).Inv := by
  cases hp : s.phase with
  | idle => rw [writeCmd_idle hp]; exact inv_accept hr hi.regs_lt v
  | busy b => rw [writeCmd_busy hp]; exact inv_setFlags hi hr _ _ _ true _ id

/-- A tag write stores only while idle, when no snapshot has to agree with the tag. -/
theorem inv_writeTag {s stored : State} (hi : s.Inv) (hr : s.rst = false)
    (h : stored = { s with tagw := stored.tagw, taghLo := stored.taghLo, taghHi := stored.taghHi }) :
    (s.writeTag stored).Inv := by
  unfold State.writeTag
  split
  · exact inv_setFlags hi hr _ _ _ _ _ id
  · rename_i hbl
    have hb : s.busy = false := by
      rw [Bool.not_eq_true, Bool.or_eq_false_iff] at hbl
      exact hbl.1
    rw [h]
    exact inv_of_idle hr (phase_of_busy_false hb) hi.regs_lt

theorem inv_storeWord {s : State} (hi : s.Inv) (hr : s.rst = false) (off : Offset) (v : Word) :
    (s.storeWord off v).Inv := by
  rcases storeWord_cases s off v with ⟨-, h⟩ | ⟨-, h⟩ | ⟨-, h⟩ | ⟨-, h⟩ | ⟨-, h⟩ | ⟨-, h⟩ | ⟨-, h⟩ |
    ⟨-, -, -, -, -, -, -, h⟩ <;> rw [h]
  · exact inv_limbWrite hi hr off v
  · exact inv_setFlags hi hr _ _ _ _ _ id
  · exact inv_setFlags hi hr _ _ _ _ _ fun hd => by rw [hd, Bool.false_and]
  · exact inv_writeCmd hi hr v
  · exact inv_writeTag hi hr rfl
  · exact inv_writeTag hi hr rfl
  · exact inv_writeTag hi hr rfl
  · exact hi

theorem inv_exec {s t : State} {b : Busy} {i : Instr} (hi : s.Inv) (hr : s.rst = false) (hb : s.phase = .busy b)
    (hd : decode b.word = .command i) (h : exec i s = .next t) : t.Inv := by
  rw [exec_busy hb] at h
  cases h
  rcases bodyOf_cases i s.cfg b with ⟨e, hx, -⟩ | ⟨f, ws, hx, -⟩ | ⟨n, k, r, rfl, hx⟩ <;> rw [hx]
  · exact inv_complete hi hr e false []
  · exact inv_complete hi hr .ok f ws
  · rw [State.finish]
    by_cases hq : b.rngReq = none
    · rw [request_of_none hb hq]
      exact inv_emit (inv_setRng hi hr hb b.draws (some r) (rngLegal_request (hi.rng b hb) hd hx)) (.rngRequest r)
    · rw [request_of_some hb hq]; exact hi

end Sys2Proof.Machine
end

section
/-! SUPPORT. The words and bytes of the window as numbers and as views of the registers (R31 to R36, R52, R61). -/

namespace Sys2Proof.Machine

@[simp] theorem pop_busy (s : State) : s.pop.busy = s.busy := rfl

@[simp] theorem windowWord_id (s : State) : s.windowWord 0x000 = idWord := rfl
@[simp] theorem windowWord_param (s : State) : s.windowWord 0x004 = paramWord s.cfg := rfl
@[simp] theorem windowWord_ctrl (s : State) : s.windowWord 0x008 = s.ctrlWord := rfl
@[simp] theorem windowWord_status (s : State) : s.windowWord 0x00C = s.statusWord := rfl
@[simp] theorem windowWord_cmd (s : State) : s.windowWord 0x010 = s.cmd := rfl
@[simp] theorem windowWord_tagw (s : State) : s.windowWord 0x014 = s.tagwWord := rfl
@[simp] theorem windowWord_taghLo (s : State) : s.windowWord 0x018 = s.taghLo := rfl
@[simp] theorem windowWord_taghHi (s : State) : s.windowWord 0x01C = s.taghHi := rfl

theorem ctrlWord_toNat (s : State) : s.ctrlWord.toNat = s.ie.toNat + 2 * s.lock.toNat := by
  have h1 := s.ie.toNat_le
  have h2 := s.lock.toNat_le
  rw [State.ctrlWord, BitVec.toNat_ofNat]
  omega

theorem statusWord_toNat (s : State) :
    s.statusWord.toNat =
      s.busy.toNat + 2 * s.done.toNat + 4 * s.rflag.toNat + 8 * s.busyerr.toNat + 16 * s.lockerr.toNat +
        2 ^ 8 * s.errcode.code.toNat := by
  have h1 := s.busy.toNat_le
  have h2 := s.done.toNat_le
  have h3 := s.rflag.toNat_le
  have h4 := s.busyerr.toNat_le
  have h5 := s.lockerr.toNat_le
  have h6 := s.errcode.code.isLt
  rw [State.statusWord, BitVec.toNat_ofNat]
  omega

theorem tagwWord_toNat (s : State) : s.tagwWord.toNat = s.tagw.toNat := by
  have h := s.tagw.isLt
  rw [State.tagwWord, BitVec.toNat_ofNat]
  omega

theorem paramWord_toNat (c : Config) : (paramWord c).toNat = c.nwords + 0x01100000 := by
  have h := c.nwords_le
  rw [paramWord, BitVec.toNat_ofNat]
  omega

/-! ### Bytes (R52, R61) -/

/-- A system address in the window is BASE plus its offset. -/
theorem windowOffset_toNat {c : Config} {a : Nat} {off : Offset} (h : windowOffset c a = some off) :
    a = c.base + off.toNat := by
  unfold windowOffset at h
  split at h
  · cases h
    rw [offset_toNat _ (by omega)]
    omega
  · cases h

/-- The offset of the word that holds a byte. -/
theorem alignedOffset_toNat (off : Offset) :
    (off - BitVec.ofNat 14 (off.toNat % 4)).toNat = off.toNat - off.toNat % 4 := by
  have h := off.isLt
  rw [BitVec.toNat_sub, BitVec.toNat_ofNat]
  omega

/-- A byte depends only on the word that holds it. -/
theorem windowByte_congr {s t : State} {a : Nat} (hcfg : t.cfg = s.cfg)
    (h : ∀ off, windowOffset s.cfg a = some off →
      t.windowWord (off - BitVec.ofNat 14 (off.toNat % 4)) = s.windowWord (off - BitVec.ofNat 14 (off.toNat % 4))) :
    t.windowByte a = s.windowByte a := by
  unfold State.windowByte
  rw [hcfg]
  cases ho : windowOffset s.cfg a with
  | none => rfl
  | some off => exact congrArg (fun w => some (lane w (off.toNat % 4))) (h off ho)

/-- After a turn of the engine, a word reads as before unless it is STATUS or a limb of a destination. -/
theorem exec_windowWord_eq {s t : State} {i : Instr} {off : Offset} (h : exec i s = .next t) (hst : off.toNat ≠ 0x00C)
    (hreg : inWindow off = true → winReg off ∉ dests i) : t.windowWord off = s.windowWord off := by
  obtain ⟨hcfg, -, hie, hlock, -, -, hcmd, htagw, hlo, hhi, -⟩ := exec_rest h
  exact windowWord_congr off hcfg (by rw [State.ctrlWord, hie, hlock]; rfl) hcmd htagw hlo hhi
    (fun e => absurd e hst) fun hw => exec_reg_eq h (hreg hw)

end Sys2Proof.Machine
end

section
/-! PROOFS. The statements about the state (10_state.md). -/

namespace Sys2Proof.Machine

/-- Settles O59: the invariant holds after each of the cases of `step_cases`. -/
theorem stepKeepsTheInvariant : Obligations.StepKeepsTheInvariant := by
  intro s t hi h
  rcases step_cases h with ⟨l, -, rfl⟩ | ⟨o, rfl⟩ | rfl | ⟨off, v, hr, -, -, rfl⟩ |
    ⟨b, r, v, hr, -, hb, hq, hlo, hhi, rfl⟩ | ⟨b, hr, -, hb, ⟨i, hd, hx⟩ | ⟨e, -, rfl⟩⟩
  · exact inv_driveRst (inv_pop hi) l
  · exact inv_emit (inv_pop hi) o
  · exact inv_pop hi
  · exact inv_emit (inv_storeWord (inv_pop hi) hr off v) _
  · exact inv_setRng (inv_pop hi) hr hb _ none (rngLegal_consume (hi.rng b hb) hq hlo hhi)
  · exact inv_exec (inv_pop hi) hr hb hd hx
  · exact inv_complete (inv_pop hi) hr e false []

/-- Settles O14. -/
theorem commandsWriteOnlyTheirDestinations : Obligations.CommandsWriteOnlyTheirDestinations :=
  fun _ _ _ _ h hj => exec_reg_eq h hj

/-- Settles O15: a byte outside the exempted ranges lies in a word that `exec_windowWord_eq` keeps. -/
theorem windowBytesOutsideDestinationsKept : Obligations.WindowBytesOutsideDestinationsKept := by
  intro s t i a h hstatus hdests
  obtain ⟨hcfg, -⟩ := exec_rest h
  refine windowByte_congr hcfg fun off ho => exec_windowWord_eq h ?_ fun hw hmem => ?_
  · have ha := windowOffset_toNat ho
    rw [alignedOffset_toNat]
    omega
  · have ha := windowOffset_toNat ho
    obtain ⟨h1, h2⟩ := winReg_bounds hw
    have hout := hdests _ hmem
    rw [alignedOffset_toNat] at h1 h2
    omega

/-- Settles O52: an aligned word write sets and clears as `storeWord_busyerr_iff` and `storeWord_lockerr_iff` say, and
every other step but reset keeps both bits. -/
theorem stickyBitsSetByDroppedWrites : Obligations.StickyBitsSetByDroppedWrites := by
  refine ⟨fun s t h hrst => ?_, fun s l he hl => ⟨_, step_of_rst he, ?_⟩⟩
  · by_cases hw : ∃ (off : Offset) (v : Word), s.nextEvent = .bus (.write off .word v) ∧ off.toNat % 4 = 0
    · obtain ⟨off, v, he, ha⟩ := hw
      rw [step_write_inv h he ha, emit_busyerr, emit_lockerr, storeWord_busyerr_iff, storeWord_lockerr_iff]
      constructor
      · simp [he, ha]
      · simp [he]
    · obtain ⟨hbusyerr, hlockerr⟩ := step_sticky_kept h hrst fun off v he ha => hw ⟨off, v, he, ha⟩
      have hstatus : ∀ v : Word, s.nextEvent ≠ .bus (.write 0x00C .word v) := fun v he => hw ⟨_, v, he, rfl⟩
      rw [hbusyerr, hlockerr]
      refine ⟨⟨fun hb => .inl ⟨hb, fun ⟨v, he, _⟩ => hstatus v he⟩, ?_⟩,
        ⟨fun hb => .inl ⟨hb, fun ⟨v, he, _⟩ => hstatus v he⟩, ?_⟩⟩
      · rintro (⟨hb, -⟩ | ⟨-, off, v, he, ha, -⟩)
        · exact hb
        · exact absurd ⟨off, v, he, ha⟩ hw
      · rintro (⟨hb, -⟩ | ⟨-, off, v, he, rfl | rfl | rfl⟩)
        · exact hb
        · exact absurd ⟨_, v, he, rfl⟩ hw
        · exact absurd ⟨_, v, he, rfl⟩ hw
        · exact absurd ⟨_, v, he, rfl⟩ hw
  · rw [driveRst_of_reset (s := s.pop) hl]
    exact ⟨rfl, rfl⟩

/-- Settles O53: of the cases of `step_cases`, only reset, a bus write and the engine's turn can change a register. -/
theorem registersChangeOnlyByWriteCompletionOrReset : Obligations.RegistersChangeOnlyByWriteCompletionOrReset := by
  intro s t j h hj
  rcases step_cases h with ⟨l, he, -⟩ | ⟨o, rfl⟩ | rfl | ⟨off, v, -, he, -, rfl⟩ | ⟨b, r, v, -, -, -, -, -, -, rfl⟩ |
    ⟨b, -, he, hb, ⟨i, hd, hx⟩ | ⟨e, hne, rfl⟩⟩
  · exact .inr (.inr ⟨l, he⟩)
  · exact absurd rfl hj
  · exact absurd rfl hj
  · obtain ⟨hw, hidle, rfl⟩ := reg_storeWord_ne (s := s.pop) hj
    exact .inl ⟨off, v, he, hidle, winReg_bounds hw⟩
  · exact absurd rfl hj
  · exact .inr (.inl ⟨b, i, he, hb, hd, exec_reg_ne hx hj⟩)
  · exact absurd ((failed_raise s.pop hne).regs j) hj

/-- Settles O41. -/
theorem controlRegistersRead : Obligations.ControlRegistersRead :=
  fun s => ⟨ctrlWord_toNat s, statusWord_toNat s, rfl, tagwWord_toNat s, rfl, rfl⟩

/-- Settles O45: ID and PARAM show nothing but the parameters, which `step_cfg` keeps. -/
theorem idAndParamAreConstants : Obligations.IdAndParamAreConstants := by
  refine ⟨fun s => ⟨rfl, ?_⟩, ?_, fun s t h => ⟨step_cfg h, ?_, ?_⟩⟩
  · have hle := s.cfg.nwords_le
    rw [windowWord_param, paramWord_toNat, Config.nbits]
    omega
  · rintro s off v (rfl | rfl) hr he
    · exact step_write hr he rfl
    · exact step_write hr he rfl
  · rw [windowWord_id, windowWord_id]
  · rw [windowWord_param, windowWord_param, step_cfg h]

/-- Settles O47. -/
theorem ctrlWriteSetsIeAndLock : Obligations.CtrlWriteSetsIeAndLock := by
  intro s v hr he
  rw [step_write hr he rfl, storeWord_ctrl, State.writeCtrl, getLsbD_eq, getLsbD_eq, pow_zero, Nat.div_one, pow_one]
  rfl

/-- Settles O48. -/
theorem statusWriteClearsWrittenOnes : Obligations.StatusWriteClearsWrittenOnes := by
  intro s v hr he
  have hclear : ∀ (b : Bool) (i : Nat), (b && !v.getLsbD i) = if v.toNat / 2 ^ i % 2 = 1 then false else b := by
    intro b i
    rw [getLsbD_eq]
    split <;> simp [*]
  rw [step_write hr he rfl, storeWord_status, State.writeStatus, hclear, hclear, hclear]
  rfl

/-- Settles O55. -/
theorem resetValues : Obligations.ResetValues := by
  intro c
  rw [windowWord_id, windowWord_param, windowWord_ctrl, windowWord_status, windowWord_cmd, windowWord_tagw,
    windowWord_taghLo, windowWord_taghHi]
  exact ⟨reset_reg c, rfl, rfl, paramWord_toNat c, BitVec.eq_of_toNat_eq (ctrlWord_toNat _),
    BitVec.eq_of_toNat_eq (statusWord_toNat _), rfl, rfl, rfl, rfl, rfl⟩

/-- Settles O58. -/
theorem resetMeetsTheInvariant : Obligations.ResetMeetsTheInvariant :=
  fun c => inv_of_idle rfl rfl (reset_reg_lt c)

end Sys2Proof.Machine
end

section
/-! SUPPORT. Bus accesses, tag writes and RNG answers as steps, and the limbs of a register as the host reads them
(R54 to R62, R72, R73, R201). -/

namespace Sys2Proof.Machine

/-! ### Reads and refused accesses (R54, R60) -/

/-- An accepted read as a step. -/
theorem step_read {s : State} {off : Offset} (hr : s.rst = false) (he : s.nextEvent = .bus (.read off .word))
    (ha : off.toNat % 4 = 0) : step s = .next (s.pop.emit (.readResp .okay (s.windowWord off))) := by
  rw [step_of_bus he, hostTurn_read (s := s.pop) hr, if_pos ((accessOk_iff _ _).2 ⟨rfl, ha⟩)]
  rfl

theorem not_accessOk {off : Offset} {size : AccessSize} (h : size ≠ .word ∨ off.toNat % 4 ≠ 0) :
    ¬ accessOk off size = true := by
  rw [accessOk_iff]
  tauto

theorem step_read_refused {s : State} {off : Offset} {size : AccessSize} (hr : s.rst = false)
    (he : s.nextEvent = .bus (.read off size)) (ha : size ≠ .word ∨ off.toNat % 4 ≠ 0) :
    step s = .next (s.pop.emit (.readResp .slverr 0)) := by
  rw [step_of_bus he, hostTurn_read (s := s.pop) hr, if_neg (not_accessOk ha)]

theorem step_write_refused {s : State} {off : Offset} {size : AccessSize} {v : Word} (hr : s.rst = false)
    (he : s.nextEvent = .bus (.write off size v)) (ha : size ≠ .word ∨ off.toNat % 4 ≠ 0) :
    step s = .next (s.pop.emit (.writeResp .slverr)) := by
  rw [step_of_bus he, hostTurn_write (s := s.pop) hr, if_neg (not_accessOk ha)]

/-! ### Reserved offsets (R59) -/

/-- The two reserved ranges, between the control registers and the operand window and past that window (R56). -/
def reserved (off : Offset) : Prop := 0x0020 ≤ off.toNat ∧ off.toNat ≤ 0x0FFF ∨ 0x3000 ≤ off.toNat

theorem inWindow_of_reserved {off : Offset} (h : reserved off) : ¬ inWindow off = true := by
  rw [reserved] at h
  rw [inWindow_iff]
  omega

theorem ne_of_reserved {off : Offset} (h : reserved off) {n : Offset} (hn : n.toNat < 0x20) : off ≠ n := by
  rintro rfl
  rw [reserved] at h
  omega

theorem windowWord_reserved (s : State) {off : Offset} (h : reserved off) : s.windowWord off = 0 := by
  have hge : 0x20 ≤ off.toNat := by rw [reserved] at h; omega
  rw [State.windowWord, if_neg (inWindow_of_reserved h)]
  split
  case h_9 => rfl
  all_goals omega

theorem storeWord_reserved (s : State) {off : Offset} (h : reserved off) (v : Word) : s.storeWord off v = s := by
  rcases storeWord_cases s off v with ⟨e, -⟩ | ⟨e, -⟩ | ⟨e, -⟩ | ⟨e, -⟩ | ⟨e, -⟩ | ⟨e, -⟩ | ⟨e, -⟩ |
    ⟨-, -, -, -, -, -, -, e⟩
  · exact absurd e (inWindow_of_reserved h)
  · exact absurd e (ne_of_reserved h (by decide))
  · exact absurd e (ne_of_reserved h (by decide))
  · exact absurd e (ne_of_reserved h (by decide))
  · exact absurd e (ne_of_reserved h (by decide))
  · exact absurd e (ne_of_reserved h (by decide))
  · exact absurd e (ne_of_reserved h (by decide))
  · exact e

/-! ### Limbs in the window (R57, R62) -/

theorem limbOffset_aligned (r : RegIdx) (w : Nat) (hw : w < 128) :
    (BitVec.ofNat 14 (0x1000 + 0x200 * r.val + 4 * w)).toNat % 4 = 0 := by
  rw [offset_toNat _ (by omega)]
  omega

theorem windowWord_limb (s : State) (r : RegIdx) (w : Nat) (hw : w < 128) :
    s.windowWord (BitVec.ofNat 14 (0x1000 + 0x200 * r.val + 4 * w)) =
      if w < s.cfg.nwords then limb (s.reg r) w else 0 := by
  obtain ⟨hin, hreg, hlimb⟩ := limbOffset_window r w hw
  rw [State.windowWord, if_pos hin, State.limbRead, hreg, hlimb]

/-- The first n limbs of a value, each with its weight, add up to the low 32n bits. -/
theorem sum_limbs (v n : Nat) :
    ((List.range n).map fun w => (limb v w).toNat * 2 ^ (32 * w)).sum = v % 2 ^ (32 * n) := by
  induction n with
  | zero => simp [Nat.mod_one]
  | succ n ih =>
    rw [List.range_succ, List.map_append, List.sum_append, ih, List.map_singleton, List.sum_singleton, limb_toNat,
      Nat.mul_succ, Nat.pow_add, Nat.mod_mul, Nat.mul_comm (_ / _ % _)]

/-- A register written with a value of its width holds that value. -/
theorem getElem_writeReg_of_lt {n v : Nat} (h : v < 2 ^ n) (r : Regs) (i : RegIdx) : (writeReg n r i v)[i] = v := by
  rw [getElem_writeReg, if_pos rfl, Nat.mod_eq_of_lt h]

/-- An accepted write to limb w of R[r] as a step. -/
theorem step_write_limb {s : State} {r : RegIdx} {w : Nat} {v : Word} (hr : s.rst = false) (hw : w < 128)
    (he : s.nextEvent = .bus (.write (BitVec.ofNat 14 (0x1000 + 0x200 * r.val + 4 * w)) .word v)) :
    step s =
      .next ((s.pop.limbWrite (BitVec.ofNat 14 (0x1000 + 0x200 * r.val + 4 * w)) v).emit (.writeResp .okay)) := by
  rw [step_write hr he (limbOffset_aligned r w hw), storeWord_window _ _ _ (limbOffset_window r w hw).1]

/-! ### Tag registers (R44, R45, R55) -/

/-- What each of the three tag writes stores while idle and unlocked. -/
theorem storeWord_tag (s : State) {off : Offset} (v : Word) (h : off = 0x014 ∨ off = 0x018 ∨ off = 0x01C) :
    s.storeWord off v = s.writeTag
      { s with
        tagw := if off = 0x014 then BitVec.ofNat 8 v.toNat else s.tagw
        taghLo := if off = 0x018 then v else s.taghLo
        taghHi := if off = 0x01C then v else s.taghHi } := by
  have hlow : v.extractLsb' 0 8 = BitVec.ofNat 8 v.toNat := rfl
  rcases h with rfl | rfl | rfl
  · rw [storeWord_tagw, hlow]; rfl
  · rw [storeWord_taghLo]; rfl
  · rw [storeWord_taghHi]; rfl

/-! ### RNG answers (R72, R73, R201) -/

theorem step_rng {s : State} {v : Nat} (hr : s.rst = false) (he : s.nextEvent = .rng v) :
    step s = .next (s.pop.rngAnswer v) := by
  rw [step_of_rng he, State.rngTurn, pop_rst, hr]
  rfl

theorem rngAnswer_inRange {s : State} {b : Busy} {r : RngReq} {v : Nat} (hb : s.phase = .busy b)
    (hq : b.rngReq = some r) (h : r.lo ≤ v % 2 ^ s.cfg.nbits ∧ v % 2 ^ s.cfg.nbits ≤ r.hi) :
    s.rngAnswer v =
      { s with phase := .busy { b with draws := b.draws ++ [v % 2 ^ s.cfg.nbits], rngReq := none } } := by
  simp [State.rngAnswer, hb, hq, h]

theorem rngAnswer_outOfRange {s : State} {b : Busy} {r : RngReq} {v : Nat} (hb : s.phase = .busy b)
    (hq : b.rngReq = some r) (h : v % 2 ^ s.cfg.nbits < r.lo ∨ r.hi < v % 2 ^ s.cfg.nbits) :
    s.rngAnswer v = s.emit (.rngRequest r) := by
  have hout : ¬ (r.lo ≤ v % 2 ^ s.cfg.nbits ∧ v % 2 ^ s.cfg.nbits ≤ r.hi) := by omega
  simp only [State.rngAnswer, hb, hq, if_neg hout]

theorem rngAnswer_unasked {s : State} (h : ∀ b, s.phase = .busy b → b.rngReq = none) (v : Nat) :
    s.rngAnswer v = s := by
  cases hp : s.phase with
  | idle => simp only [State.rngAnswer, hp]
  | busy b => simp only [State.rngAnswer, hp, h b hp]

end Sys2Proof.Machine
end

section
/-! SUPPORT. An MRT that waits for its next base: what each kind of step does to it (R72 to R74, R134). -/

namespace Sys2Proof.Machine

/-- On an odd n ≥ 5, with all draws passing and a trial left, MRT's body asks for a base in `[2, n − 2]`. -/
theorem bodyOf_mrt_draw {b : Busy} {rn : RegIdx} {k : BitVec 8} (h5 : 5 ≤ b.src rn) (hodd : b.src rn % 2 = 1)
    (hlt : b.draws.length < k.toNat) (hpass : ∀ a ∈ b.draws, witness (b.src rn) a = true) (c : Config) :
    bodyOf (.mrt rn k) c b = .draw { lo := 2, hi := b.src rn - 2 } := by
  rw [bodyOf, mrtBody_odd _ _ _ h5 hodd, mrtTrials_draw _ _ _ hlt hpass]

/-- A turn of the engine on a body that asks for a base is the request. -/
theorem exec_of_draw {s : State} {b : Busy} {i : Instr} {r : RngReq} (hb : s.phase = .busy b)
    (hx : bodyOf i s.cfg b = .draw r) : exec i s = .next (s.request r) := by
  rw [exec_busy hb, hx, State.finish]

/-- While busy a bus write changes CTRL and the flags of STATUS at most. -/
theorem storeWord_busy {s : State} {b : Busy} (hb : s.phase = .busy b) (off : Offset) (v : Word) :
    ∃ ie lock done busyerr lockerr, s.storeWord off v =
      { s with ie := ie, lock := lock, done := done, busyerr := busyerr, lockerr := lockerr } := by
  have htag : ∀ stored, s.writeTag stored = _ := writeTag_dropped (.inl (busy_of_busy hb))
  rcases storeWord_cases s off v with ⟨-, h⟩ | ⟨-, h⟩ | ⟨-, h⟩ | ⟨-, h⟩ | ⟨-, h⟩ | ⟨-, h⟩ | ⟨-, h⟩ |
    ⟨-, -, -, -, -, -, -, h⟩
  · exact ⟨_, _, _, _, _, h.trans (limbWrite_busy hb off v)⟩
  · exact ⟨_, _, _, _, _, h⟩
  · exact ⟨_, _, _, _, _, h⟩
  · exact ⟨_, _, _, _, _, h.trans (writeCmd_busy hb v)⟩
  · exact ⟨_, _, _, _, _, h.trans (htag _)⟩
  · exact ⟨_, _, _, _, _, h.trans (htag _)⟩
  · exact ⟨_, _, _, _, _, h.trans (htag _)⟩
  · exact ⟨_, _, _, _, _, h⟩

/-- What no event but reset and an in-range answer can change in a block that waits for an RNG answer: the pin is
released, the engine is busy with `b`, a request `r` is outstanding, and the accepted command's body asks for `r` again;
and no event to come is a level of `rst` or an answer in the range of `r`. -/
structure State.Waiting (s : State) (b : Busy) (r : RngReq) : Prop where
  rst : s.rst = false
  phase : s.phase = .busy b
  rngReq : b.rngReq = some r
  body : ∃ i, decode b.word = .command i ∧ bodyOf i s.cfg b = .draw r
  no_reset : ∀ e ∈ s.inputs, ∀ level, e ≠ .rst level
  no_answer : ∀ e ∈ s.inputs, ∀ v, e = .rng v → v % 2 ^ s.cfg.nbits < r.lo ∨ r.hi < v % 2 ^ s.cfg.nbits

/-- CTRL, the flags of STATUS and the port record do not matter to a block that waits. -/
theorem waiting_setFlags {s : State} {b : Busy} {r : RngReq} (h : s.Waiting b r) (ie lock done busyerr lockerr : Bool)
    (o : List Output) :
    State.Waiting
      { s with ie := ie, lock := lock, done := done, busyerr := busyerr, lockerr := lockerr, outputs := o } b r :=
  ⟨h.rst, h.phase, h.rngReq, h.body, h.no_reset, h.no_answer⟩

theorem waiting_pop {s : State} {b : Busy} {r : RngReq} (h : s.Waiting b r) : s.pop.Waiting b r where
  rst := h.rst
  phase := h.phase
  rngReq := h.rngReq
  body := h.body
  no_reset e he := h.no_reset e (List.mem_of_mem_tail he)
  no_answer e he := h.no_answer e (List.mem_of_mem_tail he)

/-- A host access leaves the block waiting. -/
theorem waiting_hostTurn {s : State} {b : Busy} {r : RngReq} (h : s.Waiting b r) (req : BusReq) :
    ∃ t, s.hostTurn req = .next t ∧ t.Waiting b r := by
  cases req with
  | read off size => exact ⟨_, hostTurn_read h.rst off size, waiting_setFlags h _ _ _ _ _ _⟩
  | write off size v =>
    refine ⟨_, hostTurn_write h.rst off size v, ?_⟩
    split
    · obtain ⟨ie, lock, done, busyerr, lockerr, hw⟩ := storeWord_busy h.phase off v
      rw [hw]
      exact waiting_setFlags h ie lock done busyerr lockerr _
    · exact waiting_setFlags h _ _ _ _ _ _

/-- A turn of the engine finds its request outstanding, and waits. -/
theorem waiting_engineTurn {s : State} {b : Busy} {r : RngReq} (h : s.Waiting b r) : s.engineTurn exec = .next s := by
  obtain ⟨i, hd, hx⟩ := h.body
  rw [engineTurn_busy h.rst h.phase, hd]
  have hreq : b.rngReq ≠ none := by rw [h.rngReq]; exact Option.some_ne_none r
  exact (exec_of_draw h.phase hx).trans (congrArg _ (request_of_some h.phase hreq r))

/-- The next event is one of those to come, or the engine's turn. -/
theorem nextEvent_eq_engine_or_mem (s : State) : s.nextEvent = .engine ∨ s.nextEvent ∈ s.inputs := by
  unfold State.nextEvent
  cases s.inputs with
  | nil => exact .inl rfl
  | cons e es => exact .inr List.mem_cons_self

/-- A block that waits has a next state, and waits in it. -/
theorem waiting_step {s : State} {b : Busy} {r : RngReq} (h : s.Waiting b r) :
    ∃ t, step s = .next t ∧ t.Waiting b r := by
  have hmem := nextEvent_eq_engine_or_mem s
  cases he : s.nextEvent with
  | bus req =>
    rw [step_of_bus he]
    exact waiting_hostTurn (waiting_pop h) req
  | engine => exact ⟨_, (step_of_engine he).trans (waiting_engineTurn (waiting_pop h)), waiting_pop h⟩
  | rst level =>
    rw [he] at hmem
    exact absurd rfl (h.no_reset _ (hmem.resolve_left nofun) level)
  | rng v =>
    rw [he] at hmem
    have hout := h.no_answer _ (hmem.resolve_left nofun) v rfl
    refine ⟨_, step_rng h.rst he, ?_⟩
    rw [rngAnswer_outOfRange (s := s.pop) h.phase h.rngReq hout]
    exact waiting_setFlags (waiting_pop h) _ _ _ _ _ _

/-- A block that waits does so after any number of steps. -/
theorem waiting_run {s : State} {b : Busy} {r : RngReq} (h : s.Waiting b r) (m : Nat) :
    ∃ t, Sys2Proof.core.run m s = .next t ∧ t.Waiting b r := by
  induction m generalizing s with
  | zero => exact ⟨s, rfl, h⟩
  | succ m ih =>
    obtain ⟨s', hs, hw⟩ := waiting_step h
    obtain ⟨t, ht, hwt⟩ := ih hw
    exact ⟨t, (run_succ m s s' hs).trans ht, hwt⟩

end Sys2Proof.Machine
end

section
/-! PROOFS. The statements about the bus and the RNG port (20_memory.md). -/

namespace Sys2Proof.Machine

/-- Settles O25. -/
theorem mrtAsksForOneBaseATrial : Obligations.MrtAsksForOneBaseATrial := by
  intro s b rn k hb h5 hodd hlt hpass
  rw [exec_of_draw hb (bodyOf_mrt_draw h5 hodd hlt hpass s.cfg)]
  exact ⟨fun hq => congrArg _ (request_of_none hb hq _), fun hq => congrArg _ (request_of_some hb hq _)⟩

/-- Settles O26: the answer fits the port, so the number the block compares is the answer itself. -/
theorem rngAnswersConsumedOrDiscarded : Obligations.RngAnswersConsumedOrDiscarded := by
  intro s v hr he hv
  have hport : v % 2 ^ s.pop.cfg.nbits = v := Nat.mod_eq_of_lt hv
  rw [step_rng hr he]
  refine ⟨fun b r hb hq hlo hhi => ?_, fun b r hb hq hout => ?_, fun hnone => ?_⟩
  · rw [rngAnswer_inRange (s := s.pop) hb hq (by rw [hport]; exact ⟨hlo, hhi⟩), hport]
    rfl
  · rw [rngAnswer_outOfRange (s := s.pop) hb hq (by rw [hport]; exact hout)]
    rfl
  · rw [rngAnswer_unasked (s := s.pop) hnone]
    rfl

/-- Settles O28: the block waits at the start, so it waits after every number of steps. -/
theorem mrtWithoutAnAnswerInRangeStaysBusy : Obligations.MrtWithoutAnAnswerInRangeStaysBusy := by
  intro s b rn k m hr hb hd h5 hodd hlt hpass hq hev
  have hw : s.Waiting b { lo := 2, hi := b.src rn - 2 } :=
    { rst := hr, phase := hb, rngReq := hq
      body := ⟨_, hd, bodyOf_mrt_draw h5 hodd hlt hpass s.cfg⟩
      no_reset := fun e he => (hev e he).1
      no_answer := fun e he => (hev e he).2 }
  obtain ⟨t, ht, hwt⟩ := waiting_run hw m
  exact ⟨t, ht, hwt.phase⟩

/-- Settles O43: every limb below NWORDS reads as the value's limb, and `sum_limbs` adds them up. -/
theorem registerIsTheSumOfItsLimbs : Obligations.RegisterIsTheSumOfItsLimbs := by
  intro s r hlt
  have hread : ∀ w ∈ List.range s.cfg.nwords,
      (s.windowWord (BitVec.ofNat 14 (0x1000 + 0x200 * r.val + 4 * w))).toNat * 2 ^ (32 * w) =
        (limb (s.reg r) w).toNat * 2 ^ (32 * w) := by
    intro w hw
    have hn := List.mem_range.1 hw
    rw [windowWord_limb s r w (hn.trans_le s.cfg.nwords_le), if_pos hn]
  rw [List.map_congr_left hread, sum_limbs, Nat.mod_eq_of_lt hlt]

/-- Settles O46: `limbWrite` in its three cases; the new register file is bound by `limb_setLimb` limb by limb. -/
theorem limbWritesReplaceOneLimb : Obligations.LimbWritesReplaceOneLimb := by
  intro s r w v hr hw hlt he
  obtain ⟨-, hreg, hlimb⟩ := limbOffset_window r w hw
  rw [step_write_limb hr hw he]
  refine ⟨fun hidle hn => ?_, fun hidle hn => ?_, fun b hb => ?_⟩
  · have hfit : setLimb (s.reg r) w v < 2 ^ s.cfg.nbits := setLimb_lt _ _ _ v hn hlt
    refine ⟨writeReg s.cfg.nbits s.regs r (setLimb (s.reg r) w v), ?_, fun j hj => ?_, ?_, fun k => ?_⟩
    · rw [limbWrite_idle (s := s.pop) hidle _ _ (by rw [hlimb]; exact hn), hreg, hlimb]
      rfl
    · rw [getElem_writeReg, if_neg hj]
      rfl
    · rw [getElem_writeReg_of_lt hfit]
      exact hfit
    · rw [getElem_writeReg_of_lt hfit, limb_setLimb]
  · rw [limbWrite_past (s := s.pop) hidle _ _ (by rw [hlimb]; exact hn)]
    rfl
  · rw [limbWrite_busy (s := s.pop) hb]
    rfl

/-- Settles O49. -/
theorem tagWritesStoreOnlyIdleAndUnlocked : Obligations.TagWritesStoreOnlyIdleAndUnlocked := by
  intro s off v hoff hr he
  have haligned : off.toNat % 4 = 0 := by rcases hoff with rfl | rfl | rfl <;> rfl
  rw [step_write hr he haligned, storeWord_tag _ v hoff]
  refine ⟨fun hidle hunlocked => ?_, fun hdropped => ?_⟩
  · rw [writeTag_stored (s := s.pop) hidle hunlocked]
    rfl
  · rw [writeTag_dropped (s := s.pop) hdropped]
    rfl

/-- Settles O39. -/
theorem hostReadsChangeNothing : Obligations.HostReadsChangeNothing :=
  fun _ _ hr he ha => step_read hr he ha

/-- Settles O40. -/
theorem onlyAlignedWordsAreAccepted : Obligations.OnlyAlignedWordsAreAccepted :=
  fun _ _ _ hr ha => ⟨fun he => step_read_refused hr he ha, fun _ he => step_write_refused hr he ha⟩

/-- Settles O42. -/
theorem limbReadsAreSlices : Obligations.LimbReadsAreSlices := by
  intro s r w hw
  rw [windowWord_limb s r w hw]
  split
  · exact limb_toNat _ _
  · rfl

/-- Settles O44: a reserved offset is no register's, for a read or for a write. -/
theorem reservedOffsetsReadZeroAndIgnoreWrites : Obligations.ReservedOffsetsReadZeroAndIgnoreWrites := by
  intro s off hr hres ha
  refine ⟨fun he => ?_, fun v he => ?_⟩
  · rw [step_read hr he ha, windowWord_reserved s hres]
    rfl
  · rw [step_write hr he ha, storeWord_reserved s.pop hres v]
    rfl

end Sys2Proof.Machine
end

section
/-! SUPPORT. The decoder and the encoder as inverses, the fields as numbers, and the words that decode to an error
(R81 to R91). -/

namespace Sys2Proof

/-! ### Fields as numbers (R81, R82, R90) -/

theorem opcField_eq (w : Word) : opcField w = w.toNat % 2 ^ 8 := by rw [opcField, slice, pow_zero, Nat.div_one]

theorem regField_eq_iff (w : Word) (lo : Nat) (r : RegIdx) : regField w lo = r ↔ r.val = w.toNat / 2 ^ lo % 16 := by
  rw [regField, slice, Fin.ext_iff, Fin.val_ofNat]
  omega

theorem immField_eq_iff (w : Word) (k : BitVec 8) : immField w = k ↔ k.toNat = w.toNat / 2 ^ 24 % 256 := by
  rw [immField, slice, ← BitVec.toNat_inj, BitVec.toNat_ofNat]
  omega

theorem groupFits_iff (r : RegIdx) (m : Nat) : groupFits r m = true ↔ r.val + m ≤ 16 := decide_eq_true_iff

theorem groupFits_eq_false {r : RegIdx} {m : Nat} (h : 16 < r.val + m) : groupFits r m = false := by
  rw [← Bool.not_eq_true, groupFits_iff]
  omega

/-! ### Commands (R86, R87) -/

@[simp] theorem opcode_assemble (op : Opcode) (w : Word) : (op.assemble w).opcode = op := by cases op <;> rfl

/-- A word is a command exactly when it matches the command's row, the command's group fits, and the row's fields of
the word are the command's operands. -/
theorem decode_eq_command_iff (w : Word) (i : Instr) :
    decode w = .command i ↔
      w &&& i.opcode.mask = i.opcode.pattern ∧ i.wellFormed = true ∧ i.opcode.assemble w = i := by
  rw [decode_eq_command]
  constructor
  · rintro ⟨op, -, hm, rfl, hwf⟩
    rw [opcode_assemble]
    exact ⟨hm, hwf, rfl⟩
  · rintro ⟨hm, hwf, hi⟩
    exact ⟨i.opcode, ((mask_iff w i.opcode).1 hm).1, hm, hi.symm, hwf⟩

/-- A row's fields of a word that matches the row encode to the word: every field the row does not use is 0. -/
theorem encode_assemble {w : Word} {op : Opcode} (h : w &&& op.mask = op.pattern) : encode (op.assemble w) = w := by
  have hpack := pack_fields op w ((mask_iff w op).1 h).1
  have hreg : ∀ lo, w.toNat / 2 ^ lo % 16 = 0 → regField w lo = 0 := fun lo hz => (regField_eq_iff w lo 0).2 hz.symm
  have himm : w.toNat / 2 ^ 24 % 256 = 0 → immField w = 0 := fun hz => (immField_eq_iff w 0).2 hz.symm
  cases op with
  | nop =>
    have hz : w.toNat / 2 ^ 8 = 0 := ((mask_iff w .nop).1 h).2
    rw [rdField, hreg 8 (by omega), rs1Field, hreg 12 (by omega), rs2Field, hreg 16 (by omega), rs3Field,
      hreg 20 (by omega), himm (by omega)] at hpack
    exact hpack
  | modexp =>
    have hz : w.toNat / 2 ^ 24 = 0 := ((mask_iff w .modexp).1 h).2
    rw [himm (by omega)] at hpack
    exact hpack
  | mrw =>
    have hz : w.toNat / 2 ^ 8 % 2 ^ 4 = 0 ∧ w.toNat / 2 ^ 20 = 0 := ((mask_iff w .mrw).1 h).2
    rw [rdField, hreg 8 (by omega), rs3Field, hreg 20 (by omega), himm (by omega)] at hpack
    exact hpack
  | mrt =>
    have hz : w.toNat / 2 ^ 8 % 2 ^ 4 = 0 ∧ w.toNat / 2 ^ 16 % 2 ^ 8 = 0 := ((mask_iff w .mrt).1 h).2
    rw [rdField, hreg 8 (by omega), rs2Field, hreg 16 (by omega), rs3Field, hreg 20 (by omega)] at hpack
    exact hpack
  | egcd =>
    have hz : w.toNat / 2 ^ 20 = 0 := ((mask_iff w .egcd).1 h).2
    rw [rs3Field, hreg 20 (by omega), himm (by omega)] at hpack
    exact hpack
  | crtsqrt =>
    have hz : w.toNat / 2 ^ 24 = 0 := ((mask_iff w .crtsqrt).1 h).2
    rw [himm (by omega)] at hpack
    exact hpack
  | tagsel =>
    have hz : w.toNat / 2 ^ 16 = 0 := ((mask_iff w .tagsel).1 h).2
    rw [rs2Field, hreg 16 (by omega), rs3Field, hreg 20 (by omega), himm (by omega)] at hpack
    exact hpack

/-! ### ILLEGAL_FIELD (R89, R90) -/

/-- A word of an assigned opcode that does not match its row. -/
theorem decode_of_mismatch {w : Word} {op : Opcode} (ho : opcField w = op.number) (hm : w &&& op.mask ≠ op.pattern) :
    decode w = .illegalField := by
  rw [decode, (Opcode.ofNumber_eq_some _ _).2 ho]
  exact if_pos hm

/-- A word of an assigned opcode whose group runs past R15, whether or not it matches its row. -/
theorem decode_of_illFormed {w : Word} {op : Opcode} (ho : opcField w = op.number)
    (hwf : (op.assemble w).wellFormed = false) : decode w = .illegalField := by
  by_cases hm : w &&& op.mask = op.pattern
  · rw [decode, (Opcode.ofNumber_eq_some _ _).2 ho]
    simp [hm, hwf]
  · exact decode_of_mismatch ho hm

/-- A word with a nonzero bit in `z` mismatches a row whose mask covers `z` and whose match is 0 there. -/
theorem mask_ne_of_reserved {w z : Word} {op : Opcode} (hw : w &&& z ≠ 0) (hmask : op.mask &&& z = z)
    (hpattern : op.pattern &&& z = 0) : w &&& op.mask ≠ op.pattern := by
  intro h
  apply hw
  calc w &&& z = w &&& op.mask &&& z := by rw [BitVec.and_assoc, hmask]
    _ = 0 := by rw [h, hpattern]

end Sys2Proof
end

section
/-! SUPPORT. The engine's turn by what the accepted word decodes to, where a step stops, and `LDR` limb by limb
(R87 to R94, R104, R200). -/

namespace Sys2Proof.Machine

/-! ### The engine's turn (R87, R103) -/

theorem step_of_command {s : State} {b : Busy} {i : Instr} (hr : s.rst = false) (hb : s.phase = .busy b)
    (he : s.nextEvent = .engine) (hd : decode b.word = .command i) : step s = exec i s.pop := by
  rw [step_of_engine he, engineTurn_busy (s := s.pop) hr hb, hd]

theorem step_of_illegalOpcode {s : State} {b : Busy} (hr : s.rst = false) (hb : s.phase = .busy b)
    (he : s.nextEvent = .engine) (hd : decode b.word = .illegalOpcode) :
    step s = .next (s.pop.finish (.raise .illegalOpcode)) := by
  rw [step_of_engine he, engineTurn_busy (s := s.pop) hr hb, hd]

theorem step_of_illegalField {s : State} {b : Busy} (hr : s.rst = false) (hb : s.phase = .busy b)
    (he : s.nextEvent = .engine) (hd : decode b.word = .illegalField) :
    step s = .next (s.pop.finish (.raise .illegalField)) := by
  rw [step_of_engine he, engineTurn_busy (s := s.pop) hr hb, hd]

/-- A command whose body ends with an error completes with it. -/
theorem exec_failed {s : State} {b : Busy} {i : Instr} {e : ErrCode} (hb : s.phase = .busy b)
    (hx : bodyOf i s.cfg b = .raise e) (he : e ≠ .ok) : ∃ t, exec i s = .next t ∧ Failed s t e :=
  ⟨_, exec_busy hb i, hx ▸ failed_raise s he⟩

/-- A command whose group runs past R15 raises ILLEGAL_FIELD itself (R90). -/
theorem bodyOf_of_illFormed {i : Instr} (h : i.wellFormed = false) (c : Config) (b : Busy) :
    bodyOf i c b = .raise .illegalField := by
  cases i with
  | nop => cases h
  | modexp => cases h
  | mrw => cases h
  | mrt => cases h
  | egcd => exact if_pos (congrArg not h)
  | crtsqrt => exact if_pos (congrArg not h)
  | tagsel => exact if_pos (congrArg not h)

/-! ### Where a step stops (R91, R180, R200) -/

/-- The engine's turn finds nothing to do, or ends the accepted word: it never stops the block. -/
theorem engineTurn_next (s : State) : ∃ t, s.engineTurn exec = .next t := by
  cases hr : s.rst with
  | true => exact ⟨s, by simp [State.engineTurn, State.engineWork, hr]⟩
  | false =>
    cases hp : s.phase with
    | idle => exact ⟨s, by simp [State.engineTurn, State.engineWork, hr, hp]⟩
    | busy b =>
      rw [engineTurn_busy hr hp]
      cases decode b.word with
      | command i => exact ⟨_, exec_busy hp i⟩
      | illegalOpcode => exact ⟨_, rfl⟩
      | illegalField => exact ⟨_, rfl⟩

theorem step_bus_in_reset {s : State} {req : BusReq} (hr : s.rst = true) (he : s.nextEvent = .bus req) :
    step s = .refused .busDuringReset :=
  (step_of_bus he).trans (if_pos hr)

/-- A step has a next state, or is a bus access while `rst` is asserted. -/
theorem step_next_or_bus_in_reset (s : State) :
    (∃ t, step s = .next t) ∨ s.rst = true ∧ ∃ req, s.nextEvent = .bus req := by
  cases he : s.nextEvent with
  | bus req =>
    cases hr : s.rst with
    | true => exact .inr ⟨rfl, req, rfl⟩
    | false => exact .inl ⟨_, (step_of_bus he).trans (if_neg (by simp [hr]))⟩
  | rng v => exact .inl ⟨_, step_of_rng he⟩
  | engine =>
    rw [step_of_engine he]
    exact .inl (engineTurn_next s.pop)
  | rst level => exact .inl ⟨_, step_of_rst he⟩

/-! ### LDR (R58, R94) -/

/-- `t` is `s` after the first `n` limb writes of `LDR Rr, v`: R[r] holds the `n` low limbs of `v`, and nothing else
but the environment's lists has changed. -/
structure State.LimbsLoaded (s : State) (r : RegIdx) (v n : Nat) (t : State) : Prop where
  frame : t = { s with regs := t.regs, inputs := t.inputs, outputs := t.outputs }
  others : ∀ j, j ≠ r → t.reg j = s.reg j
  reg_lt : t.reg r < 2 ^ s.cfg.nbits
  limbs : ∀ k, k < n → t.reg r / 2 ^ (32 * k) % 2 ^ 32 = v / 2 ^ (32 * k) % 2 ^ 32

theorem limbsLoaded_zero {s : State} {r : RegIdx} (h : s.reg r < 2 ^ s.cfg.nbits) (v : Nat) : s.LimbsLoaded r v 0 s :=
  ⟨rfl, fun _ _ => rfl, h, nofun⟩

/-- The write of the next limb, by the rule of R58. -/
theorem limbsLoaded_step {s t : State} {r : RegIdx} {v n : Nat} (h : s.LimbsLoaded r v n t) (hr : s.rst = false)
    (hp : s.phase = .idle) (hn : n < s.cfg.nwords) (he : t.nextEvent = writeWord (limbOffset r n) (limb v n)) :
    ∃ u, step t = .next u ∧ s.LimbsLoaded r v (n + 1) u ∧ u.inputs = t.inputs.tail := by
  obtain ⟨hframe, hothers, hlt, hlimbs⟩ := h
  have hcfg : t.cfg = s.cfg := by rw [hframe]
  have hwrite := limbWritesReplaceOneLimb t r n (limb v n) (by rw [hframe]; exact hr) (hn.trans_le s.cfg.nwords_le)
    (by rw [hcfg]; exact hlt) he
  obtain ⟨regs, hs, hregs, hreg_lt, hreg⟩ := hwrite.1 (by rw [hframe]; exact hp) (by rw [hcfg]; exact hn)
  refine ⟨_, hs, ⟨by rw [hframe], fun j hj => (hregs j hj).trans (hothers j hj), hcfg ▸ hreg_lt, fun k hk => ?_⟩, rfl⟩
  refine (hreg k).trans ?_
  split
  · next hkn => rw [hkn, limb_toNat]
  · exact hlimbs k (by omega)

/-- The writes of the last `m` limbs. -/
theorem limbsLoaded_run {s : State} {r : RegIdx} {v : Nat} {rest : List Event} (hr : s.rst = false)
    (hp : s.phase = .idle) (m n : Nat) (t : State) (h : s.LimbsLoaded r v n t) (hmn : n + m = s.cfg.nwords)
    (hin : t.inputs = ((List.range' n m).map fun w => writeWord (limbOffset r w) (limb v w)) ++ rest) :
    ∃ u, Sys2Proof.core.run m t = .next u ∧ s.LimbsLoaded r v s.cfg.nwords u ∧ u.inputs = rest := by
  induction m generalizing n t with
  | zero => exact ⟨t, rfl, hmn ▸ h, hin⟩
  | succ m ih =>
    rw [List.range'_succ, List.map_cons, List.cons_append] at hin
    obtain ⟨t', hs, h', hin'⟩ := limbsLoaded_step h hr hp (by omega) (by rw [State.nextEvent, hin]; rfl)
    rw [hin, List.tail_cons] at hin'
    rw [run_succ m t t' hs]
    exact ih (n + 1) t' h' (by omega) hin'

end Sys2Proof.Machine
end

section
/-! PROOFS. The statements about the encoding (30_encoding.md). -/

namespace Sys2Proof.Machine

/-- Settles O2. -/
theorem decodeOfEncode : Obligations.DecodeOfEncode :=
  fun i hwf => (decode_eq_command_iff _ i).2 ⟨mask_encode i, hwf, assemble_encode i⟩

/-- Settles O3: the command is its row's fields of the word, and `encode_assemble` puts them back. -/
theorem encodeOfDecode : Obligations.EncodeOfDecode := by
  intro w i hd
  obtain ⟨hm, hwf, hi⟩ := (decode_eq_command_iff w i).1 hd
  exact ⟨hi ▸ encode_assemble hm, hwf⟩

/-- Settles O4: each row is `decode_eq_command_iff`, the group's range and the fields written as numbers. -/
theorem mnemonicSelectedByMaskMatchAndRange : Obligations.MnemonicSelectedByMaskMatchAndRange := by
  intro w
  simp only [decode_eq_command_iff, Instr.opcode, Opcode.mask, Opcode.pattern, Instr.wellFormed, Opcode.assemble,
    groupFits_iff, Instr.modexp.injEq, Instr.mrw.injEq, Instr.mrt.injEq, Instr.egcd.injEq, Instr.crtsqrt.injEq,
    Instr.tagsel.injEq, rdField, rs1Field, rs2Field, rs3Field, regField_eq_iff, immField_eq_iff, true_and, and_true]
  have h13 : ∀ r : RegIdx, r.val + 3 ≤ 16 ↔ r.val ≤ 13 := fun r => by omega
  have h12 : ∀ r : RegIdx, r.val + 4 ≤ 16 ↔ r.val ≤ 12 := fun r => by omega
  simp only [h13, h12, implies_true, and_self]

/-- Settles O5. -/
theorem reservedOpcodeCompletesWithIllegalOpcode : Obligations.ReservedOpcodeCompletesWithIllegalOpcode := by
  intro s b hr hb he hopc
  rw [← opcField_eq, ← decode_eq_illegalOpcode] at hopc
  exact ⟨_, step_of_illegalOpcode hr hb he hopc, failed_raise s.pop nofun, rfl⟩

/-- Settles O6: in each row the nonzero field lies under the row's mask, where the row's match is 0. -/
theorem nonzeroReservedFieldCompletesWithIllegalField : Obligations.NonzeroReservedFieldCompletesWithIllegalField := by
  intro s b hr hb he hrow
  have hd : decode b.word = .illegalField := by
    rw [← opcField_eq] at hrow
    rcases hrow with ⟨ho, hz⟩ | ⟨ho, hz⟩ | ⟨ho, hz⟩ | ⟨ho, hz⟩ | ⟨ho, hz⟩ | ⟨ho, hz⟩ | ⟨ho, hz⟩
    · exact decode_of_mismatch (op := .nop) ho (mask_ne_of_reserved hz (by decide) (by decide))
    · exact decode_of_mismatch (op := .modexp) ho (mask_ne_of_reserved hz (by decide) (by decide))
    · exact decode_of_mismatch (op := .mrw) ho (mask_ne_of_reserved hz (by decide) (by decide))
    · exact decode_of_mismatch (op := .mrt) ho (mask_ne_of_reserved hz (by decide) (by decide))
    · exact decode_of_mismatch (op := .egcd) ho (mask_ne_of_reserved hz (by decide) (by decide))
    · exact decode_of_mismatch (op := .crtsqrt) ho (mask_ne_of_reserved hz (by decide) (by decide))
    · exact decode_of_mismatch (op := .tagsel) ho (mask_ne_of_reserved hz (by decide) (by decide))
  exact ⟨_, step_of_illegalField hr hb he hd, failed_raise s.pop nofun, rfl⟩

/-- Settles O7: the decoder and the command's body both find the group that does not fit. -/
theorem groupPastR15CompletesWithIllegalField : Obligations.GroupPastR15CompletesWithIllegalField := by
  constructor
  · intro s b hr hb he hrow
    have hreg : ∀ lo, (regField b.word lo).val = b.word.toNat / 2 ^ lo % 16 :=
      fun lo => (regField_eq_iff b.word lo _).1 rfl
    have hd : decode b.word = .illegalField := by
      rw [← opcField_eq, ← hreg 8, ← hreg 12] at hrow
      rcases hrow with ⟨ho, hg⟩ | ⟨ho, hg⟩ | ⟨ho, hg⟩
      · exact decode_of_illFormed (op := .egcd) ho (groupFits_eq_false (Nat.add_lt_add_right hg 3))
      · exact decode_of_illFormed (op := .crtsqrt) ho (groupFits_eq_false (Nat.add_lt_add_right hg 4))
      · exact decode_of_illFormed (op := .tagsel) ho (groupFits_eq_false (Nat.add_lt_add_right hg 4))
    exact ⟨_, step_of_illegalField hr hb he hd, failed_raise s.pop nofun, rfl⟩
  · intro s b r x y z hb
    have hfails : ∀ i : Instr, i.wellFormed = false → ∃ t, exec i s = .next t ∧ Failed s t .illegalField :=
      fun i h => exec_failed hb (bodyOf_of_illFormed h s.cfg b) nofun
    exact ⟨fun hg => hfails _ (groupFits_eq_false (Nat.add_lt_add_right hg 3)),
      fun hg => hfails _ (groupFits_eq_false (Nat.add_lt_add_right hg 4)),
      fun hg => hfails _ (groupFits_eq_false (Nat.add_lt_add_right hg 4))⟩

/-- Settles O9: by `step_next_or_bus_in_reset` and `exec_cases`, the only two stops. -/
theorem stopsOnlyInResetOrOnAnIdleEngine : Obligations.StopsOnlyInResetOrOnAnIdleEngine := by
  refine ⟨fun s => ?_, fun i s => ?_⟩
  · rcases step_next_or_bus_in_reset s with ⟨t, ht⟩ | ⟨hr, req, he⟩
    · rw [ht]
      refine ⟨nofun, fun r => ⟨nofun, ?_⟩⟩
      rintro ⟨-, hr, req, he⟩
      exact nomatch ht.symm.trans (step_bus_in_reset hr he)
    · rw [step_bus_in_reset hr he]
      exact ⟨nofun, fun r => ⟨fun h => by cases h; exact ⟨rfl, hr, req, he⟩, fun ⟨h, _⟩ => h ▸ rfl⟩⟩
  · rcases exec_cases i s with ⟨hp, h⟩ | ⟨b, hb, h⟩ <;> rw [h]
    · exact ⟨iff_of_true rfl hp, nofun⟩
    · exact ⟨iff_of_false nofun (by rw [hb]; nofun), nofun⟩

/-- Settles O50: after NWORDS limb writes R[r] has every limb of v, and a value of NBITS bits is its limbs. -/
theorem loadRegisterWritesTheWholeValue : Obligations.LoadRegisterWritesTheWholeValue := by
  intro s r v rest hr hp hlt hv hin
  rw [ldr_eq, List.range_eq_range'] at hin
  obtain ⟨t, ht, ⟨hframe, hothers, htlt, hlimbs⟩, htin⟩ :=
    limbsLoaded_run hr hp s.cfg.nwords 0 s (limbsLoaded_zero hlt v) (Nat.zero_add _) hin
  refine ⟨t, ht, eq_of_limbs _ _ _ htlt hv hlimbs, hothers, ?_⟩
  rw [hframe]
  exact ⟨hp, rfl, rfl, rfl, rfl, rfl, htin⟩

/-- Settles O1. -/
theorem specExampleWordsAssembleAndDecode : Obligations.SpecExampleWordsAssembleAndDecode := by
  unfold Obligations.SpecExampleWordsAssembleAndDecode
  decide

/-- Settles O8. -/
theorem stepRunsTheAcceptedCommand : Obligations.StepRunsTheAcceptedCommand :=
  fun _ _ _ hr hb he hd => step_of_command hr hb he hd

end Sys2Proof.Machine
end

section
/-! SUPPORT. How a command ends, told from what BUSY holds: an error writes nothing, and two states that are busy with
the same command end it alike (R101 to R105). -/

namespace Sys2Proof.Machine

/-- A turn of the engine that ends in an error is a failed completion: a success has ERRCODE 0, and an MRT that asks
for a base or waits for one is still busy. -/
theorem failed_of_exec_error {s t : State} {i : Instr} (h : exec i s = .next t) (hidle : t.phase = .idle)
    (hne : t.errcode ≠ .ok) : Failed s t t.errcode := by
  rcases exec_next_cases h with ⟨e, -, hf⟩ | ⟨f, hs⟩ | ⟨n, k, b, r, -, hb, -, ⟨-, rfl⟩ | ⟨-, rfl⟩⟩
  · exact hf.errcode.symm ▸ hf
  · exact absurd hs.errcode hne
  · exact nomatch hb.symm.trans hidle
  · exact nomatch hidle

/-- `t₁` and `t₂` are `s₁` and `s₂` after one and the same turn of the engine: what the turn writes is the same in
both, and what it leaves alone stays in both. -/
structure EndAlike (s₁ s₂ t₁ t₂ : State) : Prop where
  phase : t₁.phase = t₂.phase
  flags : t₁.phase = .idle → t₁.errcode = t₂.errcode ∧ t₁.rflag = t₂.rflag ∧ t₁.done = t₂.done
  regs : ∀ j, t₁.reg j = t₂.reg j ∨ t₁.reg j = s₁.reg j ∧ t₂.reg j = s₂.reg j

/-- The same writes to two register files: a register holds the same value in both, or is unwritten in both. -/
theorem getElem_commit_alike (n : Nat) (ws : List (RegIdx × Nat)) (r₁ r₂ : Regs) (j : RegIdx) :
    (commit n ws r₁)[j] = (commit n ws r₂)[j] ∨
      (commit n ws r₁)[j] = r₁[j] ∧ (commit n ws r₂)[j] = r₂[j] := by
  induction ws generalizing r₁ r₂ with
  | nil => exact .inr ⟨rfl, rfl⟩
  | cons w ws ih =>
    rcases ih (writeReg n r₁ w.1 w.2) (writeReg n r₂ w.1 w.2) with heq | ⟨h₁, h₂⟩
    · exact .inl heq
    · rw [getElem_writeReg] at h₁ h₂
      by_cases hj : j = w.1
      · rw [if_pos hj] at h₁ h₂
        exact .inl (h₁.trans h₂.symm)
      · rw [if_neg hj] at h₁ h₂
        exact .inr ⟨h₁, h₂⟩

theorem complete_alike {s₁ s₂ : State} (hc : s₁.cfg = s₂.cfg) (e : ErrCode) (f : Bool) (ws : List (RegIdx × Nat)) :
    EndAlike s₁ s₂ (s₁.complete e f ws) (s₂.complete e f ws) where
  phase := rfl
  flags _ := ⟨rfl, rfl, rfl⟩
  regs j := by
    simp only [State.reg, complete_regs, ← hc]
    split
    · exact getElem_commit_alike _ ws s₁.regs s₂.regs j
    · exact .inr ⟨rfl, rfl⟩

theorem request_alike {s₁ s₂ : State} {b : Busy} (h₁ : s₁.phase = .busy b) (h₂ : s₂.phase = .busy b) (r : RngReq) :
    EndAlike s₁ s₂ (s₁.request r) (s₂.request r) := by
  by_cases hq : b.rngReq = none
  · rw [request_of_none h₁ hq, request_of_none h₂ hq]
    exact ⟨rfl, nofun, fun _ => .inr ⟨rfl, rfl⟩⟩
  · rw [request_of_some h₁ hq, request_of_some h₂ hq]
    refine ⟨h₁.trans h₂.symm, fun hidle => ?_, fun _ => .inr ⟨rfl, rfl⟩⟩
    exact nomatch h₁.symm.trans hidle

/-- The same end of a command body in two states that hold the same while busy. -/
theorem finish_alike {s₁ s₂ : State} {b : Busy} (hc : s₁.cfg = s₂.cfg) (h₁ : s₁.phase = .busy b)
    (h₂ : s₂.phase = .busy b) (x : Execution) : EndAlike s₁ s₂ (s₁.finish x) (s₂.finish x) := by
  cases x with
  | ret f ws => exact complete_alike hc .ok f ws
  | raise e => exact complete_alike hc e false []
  | draw r => exact request_alike h₁ h₂ r

/-- `{TAGH_HI, TAGH_LO}` as a number (R45). -/
theorem tagh_toNat (s : State) : s.tagh.toNat = s.taghHi.toNat * 2 ^ 32 + s.taghLo.toNat := by
  have hhi := s.taghHi.isLt
  have hlo := s.taghLo.isLt
  rw [State.tagh, BitVec.toNat_ofNat]
  omega

end Sys2Proof.Machine
end

section
/-! PROOFS. The statements about commands (40_command.md). -/

namespace Sys2Proof.Machine

/-- Settles O16: `exec` ends the body that the width and what BUSY holds determine. -/
theorem executionDependsOnlyOnTheSnapshot : Obligations.ExecutionDependsOnlyOnTheSnapshot := by
  intro s₁ s₂ t₁ t₂ i hc hp hx₁ hx₂
  obtain ⟨b, h₁, rfl⟩ := exec_inv hx₁
  have h₂ : s₂.phase = .busy b := hp ▸ h₁
  rw [exec_busy h₂, ← hc] at hx₂
  cases hx₂
  obtain ⟨hphase, hflags, hregs⟩ := finish_alike hc h₁ h₂ (bodyOf i s₁.cfg b)
  exact ⟨hphase, hflags, hregs⟩

/-- Settles O12: of the ends in `exec_next_cases`, only the one that needs an RNG answer is no completion, and it is
MRT's. -/
theorem commandsButMrtCompleteInOneTurn : Obligations.CommandsButMrtCompleteInOneTurn := by
  intro s b i hb hmrt
  refine ⟨_, exec_busy hb i, ?_⟩
  rcases exec_next_cases (exec_busy hb i) with ⟨e, hne, hf⟩ | ⟨f, hs⟩ | ⟨n, k, -, -, hi, -⟩
  · exact .inl ⟨hf.errcode.symm ▸ hf, hf.errcode.symm ▸ hne⟩
  · exact .inr (hs.rflag.symm ▸ hs)
  · exact absurd hi (hmrt n k)

/-- Settles O13: a step runs the command or completes the word with its decode error. -/
theorem errorsWriteNoRegister : Obligations.ErrorsWriteNoRegister := by
  refine ⟨fun s t b i _ hx => failed_of_exec_error hx, fun s t b hr hb he h hidle hne => ?_⟩
  cases hd : decode b.word with
  | command i => exact failed_of_exec_error ((step_of_command hr hb he hd).symm.trans h) hidle hne
  | illegalOpcode =>
    rw [step_of_illegalOpcode hr hb he hd] at h
    cases h
    exact failed_raise s.pop nofun
  | illegalField =>
    rw [step_of_illegalField hr hb he hd] at h
    cases h
    exact failed_raise s.pop nofun

/-- Settles O17: the invariant holds CMD, the snapshot and the cleared flags; the words of the window show them. -/
theorem hostSeesOldValuesWhileBusy : Obligations.HostSeesOldValuesWhileBusy := by
  intro s b hi hb
  obtain ⟨hword, hsnap, hsw, hsh⟩ := hi.snapshot b hb
  obtain ⟨hdone, hrflag, herr⟩ := hi.status b hb
  refine ⟨?_, hword.symm, fun i => ?_, ?_, ?_⟩
  · rw [statusWord_toNat, busy_of_busy hb, hdone, hrflag, herr]
    rfl
  · rw [Busy.src, hsnap, State.reg]
  · rw [windowWord_tagw, tagwWord_toNat, hsw]
  · rw [windowWord_taghHi, windowWord_taghLo, hsh, tagh_toNat]

/-- Settles O11: an aligned word write to CMD is `writeCmd`, which accepts while idle and drops while busy. -/
theorem cmdWritesAcceptedExactlyWhenIdle : Obligations.CmdWritesAcceptedExactlyWhenIdle := by
  intro s w hr he
  rw [step_write hr he rfl, storeWord_cmd]
  constructor
  · intro hidle
    rw [writeCmd_idle (s := s.pop) hidle]
    exact ⟨_, rfl, rfl, rfl, busy_of_busy rfl, rfl, rfl, rfl, rfl, rfl, rfl, rfl, rfl, rfl, rfl, rfl, rfl, rfl, rfl, rfl⟩
  · intro b hb
    rw [writeCmd_busy (s := s.pop) hb]
    rfl

/-- Settles O18. -/
theorem nopCompletes : Obligations.NopCompletes :=
  fun s _ hb => ⟨_, exec_busy hb .nop, succeeded_ret s false []⟩

end Sys2Proof.Machine
end

section
/-! PROOFS. The statements about MODEXP (41_modexp.md). -/

namespace Sys2Proof.Machine

/-- MODEXP with n = 0 raises MOD_ZERO (R124). -/
theorem modexpBody_zero (rd : RegIdx) (a d : Nat) : modexpBody rd a d 0 = .raise .modZero := if_pos rfl

/-- MODEXP with n ≠ 0 returns the power in closed form (R120, R122). -/
theorem modexpBody_of_ne_zero (rd : RegIdx) (a d : Nat) {n : Nat} (hn : n ≠ 0) :
    modexpBody rd a d n = .ret false [(rd, a ^ d % n)] := by
  rw [modexpBody, if_neg hn, powerMod_eq]

/-- Settles O19: the power is below n, which is in range, so the destination keeps all of it (R120). -/
theorem modexpWritesPowerModN : Obligations.ModexpWritesPowerModN := by
  intro s b rd ra rx rn hb hrange hn
  have hbody : bodyOf (.modexp rd ra rx rn) s.cfg b = .ret false [(rd, b.src ra ^ b.src rx % b.src rn)] :=
    modexpBody_of_ne_zero rd _ _ hn
  have hfits : b.src ra ^ b.src rx % b.src rn < 2 ^ s.cfg.nbits :=
    (Nat.mod_lt _ (Nat.pos_of_ne_zero hn)).trans (hrange rn)
  refine ⟨_, exec_busy hb _, ?_⟩
  rw [hbody]
  have hreg := reg_ret_of_mem s false [(rd, b.src ra ^ b.src rx % b.src rn)] rd _ List.mem_cons_self
    (List.nodup_singleton rd)
  exact ⟨succeeded_ret s false _, hreg.trans (Nat.mod_eq_of_lt hfits)⟩

/-- Settles O20: the modulus check comes before any write. -/
theorem modexpRejectsZeroModulus : Obligations.ModexpRejectsZeroModulus := by
  intro s b rd ra rx rn hb hn
  have hbody : bodyOf (.modexp rd ra rx rn) s.cfg b = .raise .modZero := by
    rw [bodyOf, hn, modexpBody_zero]
  exact exec_failed hb hbody nofun

end Sys2Proof.Machine
end

section
/-! SUPPORT. The witness test on an odd or even n and on a prime (R131, R136), and the trials of MRT on any draws
(R132). -/

namespace Sys2Proof.Machine

/-! ### The witness test (R131, R136) -/

/-- With a factor 2 split off n − 1, n is at least 3. -/
theorem three_le_of_split {n u t : Nat} (hsplit : n - 1 = u * 2 ^ t) (hu : u % 2 = 1) (ht : 0 < t) : 3 ≤ n := by
  have hpow : 2 ^ 1 ≤ 2 ^ t := Nat.pow_le_pow_right (by decide) ht
  have hle : 1 * 2 ^ t ≤ u * 2 ^ t := Nat.mul_le_mul_right _ (by omega)
  omega

/-- The verdict of the witness test without its loops. -/
theorem witness_iff {n a u t : Nat} (hn : 2 ≤ n) (hsplit : n - 1 = u * 2 ^ t) (hu : u % 2 = 1) :
    witness n a = true ↔ a ^ u % n = 1 ∨ ∃ i, i < t ∧ a ^ (u * 2 ^ i) % n = n - 1 := by
  have hpow : ∀ i, (a ^ u % n) ^ 2 ^ i % n = a ^ (u * 2 ^ i) % n := fun i => by rw [← Nat.pow_mod, pow_mul]
  rw [witness_eq n a u t hu hsplit, squarings_iff n t _ hn (Nat.mod_lt _ (by omega)) (three_le_of_split hsplit hu)]
  simp only [hpow]

/-- Without zero divisors, repeated squaring reaches 1 from 1 or through −1 only: 1 has no other square root. -/
theorem eq_one_or_exists_pow_two_pow_eq_neg_one {K : Type*} [CommRing K] [NoZeroDivisors K] (x : K) (t : Nat)
    (h : x ^ 2 ^ t = 1) : x = 1 ∨ ∃ i, i < t ∧ x ^ 2 ^ i = -1 := by
  induction t with
  | zero => exact .inl (by simpa using h)
  | succ t ih =>
    rw [pow_succ, pow_mul, sq_eq_one_iff] at h
    rcases h with h | h
    · rcases ih h with h1 | ⟨i, hi, h1⟩
      · exact .inl h1
      · exact .inr ⟨i, by omega, h1⟩
    · exact .inr ⟨t, by omega, h⟩

/-- A prime passes every base that it does not divide: by Fermat the squarings from `a^u` end at 1. -/
theorem witness_of_prime {p a : Nat} (hp : p.Prime) (ha : ¬ p ∣ a) : witness p a = true := by
  have := Fact.mk hp
  obtain ⟨u, t, hsplit, hu⟩ := exists_split (p - 1) (Nat.sub_ne_zero_of_lt hp.one_lt)
  have hfermat : ((a : ZMod p) ^ u) ^ 2 ^ t = 1 := by
    rw [← pow_mul, ← hsplit]
    exact ZMod.pow_card_sub_one_eq_one fun h => ha ((ZMod.natCast_eq_zero_iff a p).1 h)
  have hneg : ((p - 1 : Nat) : ZMod p) = -1 := by
    rw [Nat.cast_sub hp.one_lt.le, ZMod.natCast_self, Nat.cast_one, zero_sub]
  rw [witness_iff hp.two_le hsplit hu]
  rcases eq_one_or_exists_pow_two_pow_eq_neg_one _ t hfermat with h | ⟨i, hi, h⟩
  · left
    have hmod : a ^ u % p = 1 % p := (ZMod.natCast_eq_natCast_iff' _ _ p).1 (by push_cast; exact h)
    rw [hmod, Nat.mod_eq_of_lt hp.one_lt]
  · right
    have hmod : a ^ (u * 2 ^ i) % p = (p - 1) % p :=
      (ZMod.natCast_eq_natCast_iff' _ _ p).1 (by rw [hneg]; push_cast; rw [pow_mul]; exact h)
    exact ⟨i, hi, hmod.trans (Nat.mod_eq_of_lt (Nat.sub_lt hp.pos Nat.one_pos))⟩

/-! ### The trials (R132) -/

/-- The trials give a verdict, or ask for a base in `[2, n − 2]`. -/
theorem mrtTrials_cases (n k : Nat) (ds : List Nat) :
    (∃ f, mrtTrials n k ds = .ret f []) ∨ mrtTrials n k ds = .draw { lo := 2, hi := n - 2 } := by
  induction k generalizing ds with
  | zero => exact .inl ⟨true, rfl⟩
  | succ k ih =>
    cases ds with
    | nil => exact .inr rfl
    | cons a ds =>
      rw [mrtTrials]
      split
      · exact ih ds
      · exact .inl ⟨false, rfl⟩

/-- With a draw for every trial, the verdict is whether the first k draws all pass. -/
theorem mrtTrials_of_le {n k : Nat} {ds : List Nat} (h : k ≤ ds.length) :
    mrtTrials n k ds = .ret ((ds.take k).all (witness n)) [] := by
  induction k generalizing ds with
  | zero => rfl
  | succ k ih =>
    cases ds with
    | nil => cases h
    | cons a ds =>
      rw [mrtTrials, ih (Nat.le_of_succ_le_succ h), List.take_succ_cons, List.all_cons]
      cases witness n a <;> rfl

/-- Draws after the verdict do not change it. -/
theorem mrtTrials_append {n k : Nat} {ds : List Nat} {f : Bool} (h : mrtTrials n k ds = .ret f []) (more : List Nat) :
    mrtTrials n k (ds ++ more) = .ret f [] := by
  induction k generalizing ds with
  | zero => exact h
  | succ k ih =>
    cases ds with
    | nil => cases h
    | cons a ds =>
      rw [List.cons_append, mrtTrials]
      rw [mrtTrials] at h
      split at h
      · rw [if_pos ‹_›]; exact ih h
      · rw [if_neg ‹_›]; exact h

/-- When every draw has passed, the trials do not say composite. -/
theorem mrtTrials_of_passing {n : Nat} {ds : List Nat} (k : Nat) (h : ∀ a ∈ ds, witness n a = true) :
    mrtTrials n k ds = .ret true [] ∨ mrtTrials n k ds = .draw { lo := 2, hi := n - 2 } := by
  rcases Nat.lt_or_ge ds.length k with hk | hk
  · exact .inr (mrtTrials_draw n k ds hk h)
  · exact .inl (mrtTrials_pass n k ds hk fun a ha => h a (List.mem_of_mem_take ha))

/-! ### The bodies of MRW and MRT (R130, R132) -/

theorem mrwBody_of_two_le {n : Nat} (h : 2 ≤ n) (a : Nat) : mrwBody n a = .ret (witness n a) [] :=
  if_neg (Nat.not_lt.2 h)

theorem mrwBody_of_lt_two {n : Nat} (h : n < 2) (a : Nat) : mrwBody n a = .raise .mrSmallN := if_pos h

theorem mrtBody_of_lt_two {n : Nat} (h : n < 2) (k : Nat) (ds : List Nat) : mrtBody n k ds = .ret false [] := if_pos h

theorem mrtBody_two_or_three {n : Nat} (h : n = 2 ∨ n = 3) (k : Nat) (ds : List Nat) :
    mrtBody n k ds = .ret true [] := by
  rw [mrtBody, if_neg (by omega), if_pos h]

theorem mrtBody_even {n : Nat} (h3 : 3 < n) (heven : n % 2 = 0) (k : Nat) (ds : List Nat) :
    mrtBody n k ds = .ret false [] := by
  rw [mrtBody, if_neg (by omega), if_neg (by omega), if_pos heven]

/-- On a prime, with draws in `[2, n − 2]`, MRT's body says prime or asks for a base (R136). -/
theorem mrtBody_of_prime {n : Nat} {ds : List Nat} (hp : n.Prime) (k : Nat) (hds : ∀ a ∈ ds, 2 ≤ a ∧ a ≤ n - 2) :
    mrtBody n k ds = .ret true [] ∨ mrtBody n k ds = .draw { lo := 2, hi := n - 2 } := by
  have h2 := hp.two_le
  by_cases hsmall : n = 2 ∨ n = 3
  · exact .inl (mrtBody_two_or_three hsmall k ds)
  · have hodd : n % 2 = 1 := hp.eq_two_or_odd.resolve_left fun h => hsmall (.inl h)
    rw [mrtBody_odd n k ds (by omega) hodd]
    refine mrtTrials_of_passing k fun a ha => witness_of_prime hp fun hdvd => ?_
    obtain ⟨hlo, hhi⟩ := hds a ha
    exact Nat.not_dvd_of_pos_of_lt (by omega) (by omega) hdvd

/-- A command whose body returns completes with success. -/
theorem exec_succeeded {s : State} {b : Busy} {i : Instr} {f : Bool} {ws : List (RegIdx × Nat)} (hb : s.phase = .busy b)
    (hx : bodyOf i s.cfg b = .ret f ws) : ∃ t, exec i s = .next t ∧ Succeeded s t f (ws.map Prod.fst) :=
  ⟨_, exec_busy hb i, hx ▸ succeeded_ret s f ws⟩

theorem exec_mrt_succeeded {s : State} {b : Busy} {rn : RegIdx} {k : BitVec 8} {f : Bool} (hb : s.phase = .busy b)
    (hx : mrtBody (b.src rn) k.toNat b.draws = .ret f []) : ∃ t, exec (.mrt rn k) s = .next t ∧ Succeeded s t f [] :=
  exec_succeeded (i := .mrt rn k) hb hx

/-- A busy block that asks for a base, or waits for one, is still busy. -/
theorem request_phase_ne_idle {s : State} {b : Busy} (hb : s.phase = .busy b) (r : RngReq) :
    (s.request r).phase ≠ .idle := by
  by_cases hq : b.rngReq = none
  · rw [request_of_none hb hq]; nofun
  · rw [request_of_some hb hq, hb]; nofun

end Sys2Proof.Machine
end

section
/-! SUPPORT. A whole run of MRT on an odd n ≥ 5, answer by answer (R72, R73, R132, R134). -/

namespace Sys2Proof.Machine

/-- A turn of the engine of an idle block holds the state (R195). -/
theorem step_of_engine_idle {s : State} (he : s.nextEvent = .engine) (hp : s.phase = .idle) : step s = .next s.pop := by
  have hwork : s.pop.engineWork = none := by rw [State.engineWork, pop_phase, hp]; exact ite_self none
  rw [step_of_engine he, State.engineTurn, hwork]

theorem nextEvent_of_inputs {s : State} {e : Event} {rest : List Event} (h : s.inputs = e :: rest) : s.nextEvent = e := by
  rw [State.nextEvent, h]; rfl

theorem pop_inputs_of_inputs {s : State} {e : Event} {rest : List Event} (h : s.inputs = e :: rest) :
    s.pop.inputs = rest := congrArg List.tail h

/-- On an odd n ≥ 5 the body of MRT is its trials, whatever is drawn or asked. -/
theorem bodyOf_mrt_odd {b : Busy} {rn : RegIdx} (h5 : 5 ≤ b.src rn) (hodd : b.src rn % 2 = 1) (k : BitVec 8)
    (c : Config) (ds : List Nat) (q : Option RngReq) :
    bodyOf (.mrt rn k) c { b with draws := ds, rngReq := q } = mrtTrials (b.src rn) k.toNat ds :=
  mrtBody_odd _ _ _ h5 hodd

/-- `t` is `s` after the engine's turn on the draws `ds` of `k` trials on `n`, `b` being what `s` holds while busy: it
has completed with the verdict of the trials if they give one, and waits for the next base otherwise. -/
structure State.TrialsRun (s : State) (b : Busy) (n k : Nat) (ds : List Nat) (t : State) : Prop where
  cfg : t.cfg = s.cfg
  rst : t.rst = s.rst
  regs : t.regs = s.regs
  ended : ∀ f, mrtTrials n k ds = .ret f [] → t.phase = .idle ∧ t.done = true ∧ t.errcode = .ok ∧ t.rflag = f
  waiting : ∀ r, mrtTrials n k ds = .draw r → t.phase = .busy { b with draws := ds, rngReq := some r }

/-- The answers that MRT on `n` consumes (R72, R73). -/
def inRangeAnswers (n : Nat) (answers : List Nat) : List Nat := answers.filter fun v => decide (2 ≤ v ∧ v ≤ n - 2)

theorem inRangeAnswers_of_mem {n v : Nat} (h : 2 ≤ v ∧ v ≤ n - 2) : inRangeAnswers n [v] = [v] :=
  List.filter_cons_of_pos (decide_eq_true h)

theorem inRangeAnswers_of_not_mem {n v : Nat} (h : ¬ (2 ≤ v ∧ v ≤ n - 2)) : inRangeAnswers n [v] = [] :=
  List.filter_cons_of_neg (by rw [decide_eq_true_iff]; exact h)

theorem inRangeAnswers_cons (n v : Nat) (answers : List Nat) :
    inRangeAnswers n (v :: answers) = inRangeAnswers n [v] ++ inRangeAnswers n answers :=
  List.filter_append [v] answers

section
variable {s t : State} {b : Busy} {rn : RegIdx} {k : BitVec 8} {ds : List Nat} {v : Nat} {rest : List Event}

/-- Once the trials have a verdict, neither an answer nor a turn of the engine has an effect (R195, R201). -/
theorem trialsRun_answer_ended {n m : Nat} {f : Bool} (h : s.TrialsRun b n m ds t) (hrst : t.rst = false)
    (hx : mrtTrials n m ds = .ret f []) (hin : t.inputs = .rng v :: .engine :: rest) (more : List Nat) :
    ∃ t' u, step t = .next t' ∧ step t' = .next u ∧ s.TrialsRun b n m (ds ++ more) u ∧ u.inputs = rest := by
  obtain ⟨hidle, hdone, herr, hflag⟩ := h.ended f hx
  have hanswer : step t = .next t.pop := by
    rw [step_rng hrst (nextEvent_of_inputs hin), rngAnswer_unasked (s := t.pop)]
    exact fun b hb => nomatch hidle.symm.trans hb
  have hin' := pop_inputs_of_inputs hin
  refine ⟨_, _, hanswer, step_of_engine_idle (nextEvent_of_inputs hin') hidle,
    ⟨h.cfg, h.rst, h.regs, fun g hg => ?_, fun r hr => ?_⟩, pop_inputs_of_inputs hin'⟩
  · rw [mrtTrials_append hx] at hg
    cases hg
    exact ⟨hidle, hdone, herr, hflag⟩
  · exact nomatch (mrtTrials_append hx more).symm.trans hr

variable (hd : decode b.word = .command (.mrt rn k)) (h5 : 5 ≤ b.src rn) (hodd : b.src rn % 2 = 1)
include hd h5 hodd

/-- The engine's turn with no request outstanding runs the trials. -/
theorem trialsRun_turn (hrst : t.rst = false) (hp : t.phase = .busy { b with draws := ds, rngReq := none })
    (hin : t.inputs = .engine :: rest) :
    ∃ u, step t = .next u ∧ t.TrialsRun b (b.src rn) k.toNat ds u ∧ u.inputs = rest := by
  have hstep : step t = .next (t.pop.finish (mrtTrials (b.src rn) k.toNat ds)) := by
    rw [step_of_command hrst hp (nextEvent_of_inputs hin) hd, exec_busy (s := t.pop) hp, bodyOf_mrt_odd h5 hodd]
  have hin' := pop_inputs_of_inputs hin
  refine ⟨_, hstep, ?_⟩
  rcases mrtTrials_cases (b.src rn) k.toNat ds with ⟨f, hx⟩ | hx
  · rw [hx]
    refine ⟨⟨rfl, rfl, rfl, fun g hg => ?_, fun r hr => nomatch hx.symm.trans hr⟩, hin'⟩
    rw [hx] at hg
    cases hg
    exact ⟨rfl, rfl, rfl, rfl⟩
  · rw [hx, State.finish, request_of_none (s := t.pop) hp rfl]
    refine ⟨⟨rfl, rfl, rfl, fun f hf => ?_, fun r hr => ?_⟩, hin'⟩
    · exact nomatch hx.symm.trans hf
    · rw [hx] at hr
      cases hr
      rfl

/-- While the trials wait, an answer in range is the next draw, and the engine's turn runs the trials on it (R72). -/
theorem trialsRun_answer_inRange {r : RngReq} (h : s.TrialsRun b (b.src rn) k.toNat ds t) (hrst : t.rst = false)
    (hx : mrtTrials (b.src rn) k.toNat ds = .draw r) (hv : v < 2 ^ t.cfg.nbits) (hr : r.lo ≤ v ∧ v ≤ r.hi)
    (hin : t.inputs = .rng v :: .engine :: rest) :
    ∃ t' u, step t = .next t' ∧ step t' = .next u ∧ s.TrialsRun b (b.src rn) k.toNat (ds ++ [v]) u ∧
      u.inputs = rest := by
  have hport : v % 2 ^ t.pop.cfg.nbits = v := Nat.mod_eq_of_lt hv
  have hanswer := step_rng hrst (nextEvent_of_inputs hin)
  rw [rngAnswer_inRange (s := t.pop) (h.waiting r hx) rfl (by rw [hport]; exact hr), hport] at hanswer
  obtain ⟨u, hturn, hu, huin⟩ := trialsRun_turn
    (t := { t.pop with phase := .busy { b with draws := ds ++ [v], rngReq := none } }) hd h5 hodd hrst rfl
    (pop_inputs_of_inputs hin)
  exact ⟨_, u, hanswer, hturn, ⟨hu.cfg.trans h.cfg, hu.rst.trans h.rst, hu.regs.trans h.regs, hu.ended, hu.waiting⟩,
    huin⟩

/-- While the trials wait, an answer out of range is discarded, and the engine's turn finds its request placed (R73). -/
theorem trialsRun_answer_outOfRange {r : RngReq} (h : s.TrialsRun b (b.src rn) k.toNat ds t) (hrst : t.rst = false)
    (hx : mrtTrials (b.src rn) k.toNat ds = .draw r) (hv : v < 2 ^ t.cfg.nbits) (hr : v < r.lo ∨ r.hi < v)
    (hin : t.inputs = .rng v :: .engine :: rest) :
    ∃ t' u, step t = .next t' ∧ step t' = .next u ∧ s.TrialsRun b (b.src rn) k.toNat ds u ∧ u.inputs = rest := by
  have hport : v % 2 ^ t.pop.cfg.nbits = v := Nat.mod_eq_of_lt hv
  have hb := h.waiting r hx
  have hanswer := step_rng hrst (nextEvent_of_inputs hin)
  rw [rngAnswer_outOfRange (s := t.pop) hb rfl (by rw [hport]; exact hr)] at hanswer
  have hin' : (t.pop.emit (.rngRequest r)).inputs = .engine :: rest := pop_inputs_of_inputs hin
  have hturn : step (t.pop.emit (.rngRequest r)) = .next (t.pop.emit (.rngRequest r)).pop := by
    rw [step_of_command (s := t.pop.emit _) hrst hb (nextEvent_of_inputs hin') hd,
      exec_of_draw (s := (t.pop.emit _).pop) hb ((bodyOf_mrt_odd h5 hodd k _ ds _).trans hx),
      request_of_some (s := (t.pop.emit _).pop) hb (Option.some_ne_none r)]
  exact ⟨_, _, hanswer, hturn, ⟨h.cfg, h.rst, h.regs, h.ended, h.waiting⟩, pop_inputs_of_inputs hin'⟩

/-- An answer and the engine's turn after it: the answer is a draw exactly when it is in range. -/
theorem trialsRun_answer (hrst : s.rst = false) (h : s.TrialsRun b (b.src rn) k.toNat ds t)
    (hv : v < 2 ^ s.cfg.nbits) (hin : t.inputs = .rng v :: .engine :: rest) :
    ∃ t' u, step t = .next t' ∧ step t' = .next u ∧
      s.TrialsRun b (b.src rn) k.toNat (ds ++ inRangeAnswers (b.src rn) [v]) u ∧ u.inputs = rest := by
  have hrst' : t.rst = false := h.rst.trans hrst
  rw [← h.cfg] at hv
  rcases mrtTrials_cases (b.src rn) k.toNat ds with ⟨f, hx⟩ | hx
  · exact trialsRun_answer_ended h hrst' hx hin _
  · by_cases hr : 2 ≤ v ∧ v ≤ b.src rn - 2
    · rw [inRangeAnswers_of_mem hr]
      exact trialsRun_answer_inRange hd h5 hodd h hrst' hx hv hr hin
    · rw [inRangeAnswers_of_not_mem hr, List.append_nil]
      exact trialsRun_answer_outOfRange hd h5 hodd h hrst' hx hv (by dsimp only; omega) hin

/-- A list of answers, each followed by the engine's turn. -/
theorem trialsRun_answers (hrst : s.rst = false) (answers : List Nat) (h : s.TrialsRun b (b.src rn) k.toNat ds t)
    (hv : ∀ v ∈ answers, v < 2 ^ s.cfg.nbits) (hin : t.inputs = answers.flatMap fun v => [.rng v, .engine]) :
    ∃ u, Sys2Proof.core.run (2 * answers.length) t = .next u ∧
      s.TrialsRun b (b.src rn) k.toNat (ds ++ inRangeAnswers (b.src rn) answers) u := by
  induction answers generalizing ds t with
  | nil => exact ⟨t, rfl, (List.append_nil ds).symm ▸ h⟩
  | cons v answers ih =>
    obtain ⟨t', u, hanswer, hturn, hu, huin⟩ := trialsRun_answer hd h5 hodd hrst h (hv v List.mem_cons_self) hin
    obtain ⟨w, hrun, hw⟩ := ih hu (fun v' hv' => hv v' (List.mem_cons_of_mem v hv')) huin
    refine ⟨w, ?_, ?_⟩
    · rw [List.length_cons, Nat.mul_succ, run_succ _ t t' hanswer, run_succ _ t' u hturn, hrun]
    · rw [inRangeAnswers_cons, ← List.append_assoc]
      exact hw

end

end Sys2Proof.Machine
end

section
/-! PROOFS. The statements about the Miller–Rabin commands (42_miller_rabin.md). -/

namespace Sys2Proof.Machine

/-- Settles O21. -/
theorem witnessIsTheStrongProbablePrimeTest : Obligations.WitnessIsTheStrongProbablePrimeTest :=
  fun _ _ _ _ hn hsplit hu => witness_iff hn hsplit hu

/-- Settles O24: enough passing draws, or the first failing one, decide the trials. -/
theorem mrtVerdictFromTheDraws : Obligations.MrtVerdictFromTheDraws := by
  intro s b rn k hb h5 hodd
  refine ⟨fun hk hpass => ?_, fun passed a rest hds hlt hpass hfail => ?_⟩
  · exact exec_mrt_succeeded hb ((mrtBody_odd _ _ _ h5 hodd).trans (mrtTrials_pass _ _ _ hk hpass))
  · refine exec_mrt_succeeded hb ((mrtBody_odd _ _ _ h5 hodd).trans ?_)
    rw [hds]
    exact mrtTrials_fail _ _ _ _ _ hlt hpass hfail

/-- Settles O27: the first turn asks for a base (or has the verdict, for k = 0), every later pair of steps adds the answer
to the draws if it is in range, and with k draws the trials have their verdict. -/
theorem mrtRunDecidesByFirstInRangeAnswers : Obligations.MrtRunDecidesByFirstInRangeAnswers := by
  intro s b rn k answers hrst hb hd h5 hodd hdraws hreq hv hin hk
  have hphase : s.phase = .busy { b with draws := [], rngReq := none } := by rw [hb, ← hdraws, ← hreq]
  obtain ⟨t, hturn, ht, htin⟩ := trialsRun_turn hd h5 hodd hrst hphase hin
  obtain ⟨u, hrun, hu⟩ := trialsRun_answers hd h5 hodd hrst answers ht hv htin
  obtain ⟨hidle, hdone, herr, hflag⟩ := hu.ended _ (mrtTrials_of_le hk)
  refine ⟨u, ?_, hidle, hdone, herr, hu.regs, hflag⟩
  rw [Nat.add_comm, run_succ _ s t hturn, hrun]

/-- Settles O29: both parts are `witness_of_prime`. -/
theorem witnessFailureProvesCompositeness : Obligations.WitnessFailureProvesCompositeness := by
  refine ⟨fun n a _ hfail => ?_, fun n a hp _ ha => witness_of_prime hp ha⟩
  by_contra hno
  obtain ⟨hp, ha⟩ := not_or.1 hno
  rw [witness_of_prime (not_not.1 hp) ha] at hfail
  cases hfail

/-- Settles O30: the invariant keeps the draws in `[2, n − 2]`, where a prime passes every base. -/
theorem mrtNeverRejectsAPrime : Obligations.MrtNeverRejectsAPrime := by
  intro s t b rn k hi hb hd hp hx hidle
  rw [exec_busy hb] at hx
  cases hx
  rcases mrtBody_of_prime hp k.toNat (rngLegal_draws (hi.rng b hb) hd) with h | h
  · rw [bodyOf, h]; rfl
  · rw [bodyOf, h] at hidle
    exact absurd hidle (request_phase_ne_idle hb _)

/-- Settles O22. -/
theorem mrwReportsTheWitnessTest : Obligations.MrwReportsTheWitnessTest := by
  intro s b rn ra hb
  refine ⟨fun hn => ?_, fun hn => ?_⟩
  · exact exec_succeeded (i := .mrw rn ra) hb (mrwBody_of_two_le hn _)
  · exact exec_failed (i := .mrw rn ra) hb (mrwBody_of_lt_two hn _) nofun

/-- Settles O23. -/
theorem mrtDefiniteVerdicts : Obligations.MrtDefiniteVerdicts := by
  intro s b rn k hb
  refine ⟨fun hn => ?_, fun hn => ?_, fun ⟨h3, heven⟩ => ?_, fun ⟨h5, hodd, hk⟩ => ?_⟩
  · exact exec_mrt_succeeded hb (mrtBody_of_lt_two hn _ _)
  · exact exec_mrt_succeeded hb (mrtBody_two_or_three hn _ _)
  · exact exec_mrt_succeeded hb (mrtBody_even h3 heven _ _)
  · subst hk
    exact exec_mrt_succeeded hb (mrtBody_odd _ _ _ h5 hodd)

end Sys2Proof.Machine
end

section
/-! SUPPORT. Euclid's recursion for `egcd` (R150) with the bound on its coefficients (R152), and the registers that a
successful command writes to a group (R82, R104). -/

namespace Sys2Proof.Machine

/-! ### The recursion of `egcd` (R150) -/

theorem egcd_zero (a : Nat) : egcd a 0 = { g := a, s := 1, t := 0 } := rfl

/-- One step of the loop: its first rows are those of `(b, a mod b)` with the coefficients `(0, 1)` and `(1, −(a div b))`
in place of `(1, 0)` and `(0, 1)`, and the loop is linear in them. -/
theorem egcd_of_pos (a : Nat) {b : Nat} (hb : 0 < b) :
    egcd a b =
      { g := (egcd b (a % b)).g
        s := (egcd b (a % b)).t
        t := (egcd b (a % b)).s - (a / b : Nat) * (egcd b (a % b)).t } := by
  have hr : a - a / b * b = a % b := by rw [Nat.mod_eq_sub_div_mul]
  have hfuel : egcdLoop b ⟨b, 1, 0⟩ ⟨a % b, 0, 1⟩ = egcd b (a % b) :=
    egcdLoop_fuel _ _ _ _ (Nat.mod_lt a hb).le (Nat.le_succ _)
  rw [egcd, egcdLoop, if_neg hb.ne', egcdLoop_linear]
  simp only [hr, hfuel, mul_zero, mul_one, sub_zero, zero_sub, zero_add]
  congr 1
  ring

/-! ### What `egcd` returns (R152, R153) -/

/-- Euclid's step keeps the gcd. -/
theorem gcd_mod_eq (a b : Nat) : Nat.gcd b (a % b) = Nat.gcd a b := by
  rw [Nat.gcd_comm, ← Nat.gcd_rec, Nat.gcd_comm]

theorem egcd_g (a b : Nat) : (egcd a b).g = Nat.gcd a b := by
  induction a, b using egcd_induction with
  | h0 a => exact (Nat.gcd_zero_right a).symm
  | h1 a b hb ih => rw [egcd_of_pos a hb, ih, gcd_mod_eq]

/-- Bézout's identity: Euclid's step keeps the value of the combination. -/
theorem egcd_bezout (a b : Nat) : (egcd a b).s * a + (egcd a b).t * b = Nat.gcd a b := by
  induction a, b using egcd_induction with
  | h0 a => simp [egcd_zero]
  | h1 a b hb ih =>
    have hdiv : ((a % b : Nat) : Int) + b * (a / b : Nat) = a := by exact_mod_cast Nat.mod_add_div a b
    rw [egcd_of_pos a hb, ← gcd_mod_eq, ← ih]
    linear_combination -(egcd b (a % b)).t * hdiv

/-- Half of each operand bounds the other's coefficient (R152), save for `(s, t) = (0, 1)` where b divides a. That
exception touches t alone, so Euclid's step, which takes s from the old t on a larger operand, keeps both bounds. -/
theorem egcd_coef_bound (a b : Nat) (hb : 0 < b) : 2 * |(egcd a b).s| ≤ b ∧ 2 * |(egcd a b).t| ≤ max 2 (a : Int) := by
  induction a, b using egcd_induction with
  | h0 a => exact absurd hb (lt_irrefl 0)
  | h1 a b _ ih =>
    rw [egcd_of_pos a hb]
    rcases Nat.eq_zero_or_pos (a % b) with hr | hr
    · simp [hr, egcd_zero]
    · have hlt : a % b < b := Nat.mod_lt a hb
      have hdiv : ((a % b : Nat) : Int) + (a / b : Nat) * b = a := by exact_mod_cast Nat.mod_add_div' a b
      generalize egcd b (a % b) = e at ih
      obtain ⟨hs, htmax⟩ := ih hr
      have ht : 2 * |e.t| ≤ b := by omega
      refine ⟨ht, le_max_of_le_right ?_⟩
      calc 2 * |e.s - (a / b : Nat) * e.t|
          ≤ 2 * (|e.s| + |(a / b : Nat) * e.t|) := mul_le_mul_of_nonneg_left (abs_sub _ _) zero_le_two
        _ = 2 * |e.s| + (a / b : Nat) * (2 * |e.t|) := by rw [abs_mul, Nat.abs_cast]; ring
        _ ≤ (a % b : Nat) + (a / b : Nat) * b := add_le_add hs (mul_le_mul_of_nonneg_left ht (Nat.cast_nonneg _))
        _ = a := hdiv

/-- A coefficient below half the range fits. -/
theorem coefFits_of_two_mul_abs_lt {n : Nat} (hn : 1 ≤ n) {v : Int} (h : 2 * |v| < 2 ^ n) : coefFits n v = true := by
  have hpow : (2 : Int) ^ n = 2 * 2 ^ (n - 1) := by rw [← pow_succ', Nat.sub_add_cancel hn]
  have hv : |v| < 2 ^ (n - 1) := by omega
  exact (coefFits_iff n v).2 ⟨(abs_lt.1 hv).1.le, (abs_lt.1 hv).2⟩

/-- The least width R8 allows leaves room for the coefficient 1. -/
theorem two_le_nbits (c : Config) : 2 ≤ c.nbits :=
  (by decide : 2 ≤ 32 * 2).trans (Nat.mul_le_mul_left 32 c.nwords_ge)

/-- R152: on operands of `n ≥ 2` bits COEF_RANGE never arises. -/
theorem coefFits_egcd {n a b : Nat} (hn : 2 ≤ n) (ha : a < 2 ^ n) (hb : b < 2 ^ n) :
    coefFits n (egcd a b).s = true ∧ coefFits n (egcd a b).t = true := by
  have hfour : 2 ^ 2 ≤ 2 ^ n := Nat.pow_le_pow_right two_pos hn
  zify at ha hb hfour
  suffices h : 2 * |(egcd a b).s| < 2 ^ n ∧ 2 * |(egcd a b).t| < 2 ^ n from
    ⟨coefFits_of_two_mul_abs_lt (by omega) h.1, coefFits_of_two_mul_abs_lt (by omega) h.2⟩
  rcases Nat.eq_zero_or_pos b with rfl | hpos
  · rw [egcd_zero, abs_one, abs_zero]
    omega
  · obtain ⟨hs, ht⟩ := egcd_coef_bound a b hpos
    omega

theorem gcd_lt_of_lt {a b m : Nat} (ha : a < m) (hb : b < m) : Nat.gcd a b < m := by
  rcases Nat.eq_zero_or_pos b with rfl | hpos
  · rwa [Nat.gcd_zero_right]
  · exact (Nat.gcd_le_right a hpos).trans_lt hb

/-! ### Groups (R82, R104) -/

/-- The members of a group are different registers. -/
theorem nodup_members (r : RegIdx) {m : Nat} (hm : m ≤ 16) : ((List.range m).map (member r)).Nodup := by
  refine List.Nodup.map_on (fun i hi j hj h => ?_) List.nodup_range
  rw [List.mem_range] at hi hj
  have hval : (r.val + i) % 16 = (r.val + j) % 16 := congrArg Fin.val h
  omega

/-- A command whose body returns completes with success, and each destination holds its value's NBITS low bits. -/
theorem exec_succeeded_regs {s : State} {b : Busy} {i : Instr} {f : Bool} {ws : List (RegIdx × Nat)}
    (hb : s.phase = .busy b) (hx : bodyOf i s.cfg b = .ret f ws) (hnodup : (ws.map Prod.fst).Nodup) :
    ∃ t, exec i s = .next t ∧ Succeeded s t f (ws.map Prod.fst) ∧
      ∀ w ∈ ws, t.reg w.1 = w.2 % 2 ^ s.cfg.nbits :=
  ⟨_, exec_busy hb i, hx ▸ succeeded_ret s f ws, fun w hw => hx ▸ reg_ret_of_mem s f ws w.1 w.2 hw hnodup⟩

/-- The body of EGCD where the coefficients fit (R151). -/
theorem egcdBody_of_fits {n : Nat} (rd : RegIdx) {e : Bezout} (hs : coefFits n e.s = true) (ht : coefFits n e.t = true) :
    egcdBody n rd e = .ret false [(member rd 0, e.g), (member rd 1, s2u n e.s), (member rd 2, s2u n e.t)] := by
  simp [egcdBody, hs, ht]

/-- R13: a register that was written `s2u v` is read back as v. -/
theorem u2s_s2u_mod {n : Nat} (hn : 1 ≤ n) {v : Int} (h : coefFits n v = true) : u2s n (s2u n v % 2 ^ n) = v := by
  rw [Nat.mod_eq_of_lt (s2u_lt n v), u2s_s2u n v hn h]

end Sys2Proof.Machine
end

section
/-! PROOFS. The statements about EGCD (43_egcd.md). -/

namespace Sys2Proof.Machine

/-- Settles O31. -/
theorem egcdFollowsEuclid : Obligations.EgcdFollowsEuclid :=
  ⟨egcd_zero, fun a _ hb => egcd_of_pos a hb⟩

/-- Settles O32: the coefficients fit (R152), so the body returns, and reading the group gives back g, s and t. -/
theorem egcdWritesGcdAndBezoutCoefficients : Obligations.EgcdWritesGcdAndBezoutCoefficients := by
  intro s b rd ra rb hb hrange hrd
  have hwidth : 2 ≤ s.cfg.nbits := two_le_nbits s.cfg
  have hgroup : groupFits rd 3 = true := (groupFits_iff rd 3).2 (Nat.add_le_add_right hrd 3)
  obtain ⟨hs, ht⟩ := coefFits_egcd hwidth (hrange ra) (hrange rb)
  have hbody : bodyOf (.egcd rd ra rb) s.cfg b = egcdBody s.cfg.nbits rd (egcd (b.src ra) (b.src rb)) := by
    simp [bodyOf, hgroup]
  obtain ⟨t, hnext, hsucc, hregs⟩ :=
    exec_succeeded_regs hb (hbody.trans (egcdBody_of_fits rd hs ht)) (nodup_members rd (m := 3) (by decide))
  simp only [List.forall_mem_cons] at hregs
  obtain ⟨hg, hr1, hr2, -⟩ := hregs
  have hs' := (congrArg (u2s s.cfg.nbits) hr1).trans (u2s_s2u_mod (by omega) hs)
  have ht' := (congrArg (u2s s.cfg.nbits) hr2).trans (u2s_s2u_mod (by omega) ht)
  have hg' := hg.trans (by rw [egcd_g, Nat.mod_eq_of_lt (gcd_lt_of_lt (hrange ra) (hrange rb))])
  refine ⟨t, hnext, hsucc, hg', hs', ht', ?_⟩
  rw [hs', ht']
  exact egcd_bezout _ _

end Sys2Proof.Machine
end

section
/-! SUPPORT. CRTSQRT by its key checks (R162), the residues of its four candidates (R160, R163 to R165), and what it
leaves in its group. -/

namespace Sys2Proof.Machine

/-! ### The key checks (R162) -/

/-- A key on which CRTSQRT raises no error: it passes the four checks of R162. -/
structure KeyPasses (nbits p q : Nat) : Prop where
  p_mod_four : p % 4 = 3
  q_mod_four : q % 4 = 3
  ne : p ≠ q
  lt : p * q < 2 ^ nbits
  coprime : Nat.Coprime p q

section
variable {nbits p q : Nat} (rd : RegIdx) (c : Nat)

theorem crtsqrtBody_of_not_three_mod_four (h : p % 4 ≠ 3 ∨ q % 4 ≠ 3) :
    crtsqrtBody nbits rd c p q = .raise .keyNot3Mod4 := if_pos h

theorem crtsqrtBody_of_eq (hp : p % 4 = 3) (hq : q % 4 = 3) (h : p = q) :
    crtsqrtBody nbits rd c p q = .raise .keyEqual := by
  rw [crtsqrtBody, if_neg (by omega), if_pos h]

theorem crtsqrtBody_of_range (hp : p % 4 = 3) (hq : q % 4 = 3) (hne : p ≠ q) (h : 2 ^ nbits ≤ p * q) :
    crtsqrtBody nbits rd c p q = .raise .keyRange := by
  rw [crtsqrtBody, if_neg (by omega), if_neg hne, if_pos h]

theorem crtsqrtBody_of_not_coprime (hp : p % 4 = 3) (hq : q % 4 = 3) (hne : p ≠ q) (hlt : p * q < 2 ^ nbits)
    (h : Nat.gcd p q ≠ 1) : crtsqrtBody nbits rd c p q = .raise .keyNotCoprime := by
  rw [crtsqrtBody, if_neg (by omega), if_neg hne, if_neg hlt.not_ge, if_pos (egcd_g p q ▸ h)]

theorem crtsqrtBody_of_keyPasses (h : KeyPasses nbits p q) :
    crtsqrtBody nbits rd c p q = .ret false (groupWrites rd (crtCandidates (egcd p q) c p q)) := by
  have hmod : ¬ (p % 4 ≠ 3 ∨ q % 4 ≠ 3) := by simp [h.p_mod_four, h.q_mod_four]
  rw [crtsqrtBody, if_neg hmod, if_neg h.ne, if_neg h.lt.not_ge,
    if_neg (not_not.2 ((egcd_g p q).trans h.coprime))]

end

theorem bodyOf_crtsqrt {rd : RegIdx} (hrd : rd.val ≤ 12) (rc rp rq : RegIdx) (c : Config) (b : Busy) :
    bodyOf (.crtsqrt rd rc rp rq) c b = crtsqrtBody c.nbits rd (b.src rc) (b.src rp) (b.src rq) := by
  have hfits : groupFits rd 4 = true := (groupFits_iff rd 4).2 (Nat.add_le_add_right hrd 4)
  simp [bodyOf, hfits]

/-! ### The residues of the candidates (R160, R164, R165) -/

/-- `x` and `y` of R160 by their residues (R164): `x` has the roots of c modulo p and q, and `y` the negative root
modulo p. -/
structure CrtRoots (c p q x y : Nat) : Prop where
  x_lt : x < p * q
  x_mod_p : (x : ZMod p) = c ^ ((p + 1) / 4)
  x_mod_q : (x : ZMod q) = c ^ ((q + 1) / 4)
  y_lt : y < p * q
  y_mod_p : (y : ZMod p) = -c ^ ((p + 1) / 4)
  y_mod_q : (y : ZMod q) = c ^ ((q + 1) / 4)

/-- `crtCombine_spec` in `ZMod p` and `ZMod q`. -/
theorem crtCombine_cast {e : Bezout} {p q : Nat} (hp : 0 < p) (hq : 0 < q) (he : e.s * p + e.t * q = 1)
    (mP mQ : Nat) (sign : Int) :
    crtCombine e p q mP mQ sign < p * q ∧ (crtCombine e p q mP mQ sign : ZMod p) = sign * mP ∧
      (crtCombine e p q mP mQ sign : ZMod q) = mQ := by
  obtain ⟨hlt, hmodp, hmodq⟩ := crtCombine_spec e p q mP mQ sign hp hq he
  refine ⟨hlt, ?_, ?_⟩
  · exact_mod_cast (ZMod.intCast_eq_intCast_iff _ _ p).2 hmodp
  · exact_mod_cast (ZMod.intCast_eq_intCast_iff _ _ q).2 hmodq

theorem cast_powerMod (c d p : Nat) : (powerMod c d p : ZMod p) = c ^ d := by
  rw [powerMod_eq, ZMod.natCast_mod, Nat.cast_pow]

/-- The candidates of coprime p and q (R160, R165). -/
theorem crtCandidates_eq {p q : Nat} (hp : 0 < p) (hq : 0 < q) (hpq : Nat.Coprime p q) (c : Nat) :
    ∃ x y, crtCandidates (egcd p q) c p q = [x, p * q - x, y, p * q - y] ∧ CrtRoots c p q x y := by
  have he : (egcd p q).s * p + (egcd p q).t * q = 1 := by rw [egcd_bezout, hpq, Nat.cast_one]
  have hcombine := crtCombine_cast hp hq he (powerMod c ((p + 1) / 4) p) (powerMod c ((q + 1) / 4) q)
  obtain ⟨hx, hxp, hxq⟩ := hcombine 1
  obtain ⟨hy, hyp, hyq⟩ := hcombine (-1)
  refine ⟨_, _, rfl, hx, hxp.trans ?_, hxq.trans ?_, hy, hyp.trans ?_, hyq.trans ?_⟩ <;> simp [cast_powerMod]

theorem crtCandidates_le {p q v : Nat} (hp : 0 < p) (hq : 0 < q) (hpq : Nat.Coprime p q) {c : Nat}
    (hv : v ∈ crtCandidates (egcd p q) c p q) : v ≤ p * q := by
  obtain ⟨x, y, heq, hroots⟩ := crtCandidates_eq hp hq hpq c
  have hx := hroots.x_lt
  have hy := hroots.y_lt
  simp only [heq, List.mem_cons, List.not_mem_nil, or_false] at hv
  omega

/-! ### Square roots (R163) -/

/-- For a prime p ≡ 3 (mod 4) the power (p + 1) / 4 of a square is one of its roots: c^((p+1)/2) = m^p · m, which is m²
by Fermat. -/
theorem sq_pow_quarter {p : Nat} (hp : p.Prime) (h4 : p % 4 = 3) {c m : ZMod p} (hc : c = m ^ 2) :
    (c ^ ((p + 1) / 4)) ^ 2 = c := by
  have : Fact p.Prime := ⟨hp⟩
  have hexp : 2 * ((p + 1) / 4 * 2) = p + 1 := by omega
  rw [hc, ← pow_mul, ← pow_mul, hexp, pow_succ, ZMod.pow_card, sq]

theorem cast_sub_eq_neg {n p x : Nat} (hx : x ≤ n) (hp : p ∣ n) : ((n - x : Nat) : ZMod p) = -x := by
  rw [Nat.cast_sub hx, (ZMod.natCast_eq_zero_iff n p).2 hp, zero_sub]

/-- Every candidate is a root of c modulo p or the negative of one, and the same modulo q. -/
theorem crtCandidates_sq {p q c v : Nat} (hp : 0 < p) (hq : 0 < q) (hpq : Nat.Coprime p q)
    (hv : v ∈ crtCandidates (egcd p q) c p q) :
    (v : ZMod p) ^ 2 = (c ^ ((p + 1) / 4)) ^ 2 ∧ (v : ZMod q) ^ 2 = (c ^ ((q + 1) / 4)) ^ 2 := by
  obtain ⟨x, y, heq, hroots⟩ := crtCandidates_eq hp hq hpq c
  simp only [heq, List.mem_cons, List.not_mem_nil, or_false] at hv
  rcases hv with rfl | rfl | rfl | rfl
  · simp [hroots.x_mod_p, hroots.x_mod_q]
  · simp [cast_sub_eq_neg hroots.x_lt.le, hroots.x_mod_p, hroots.x_mod_q]
  · simp [hroots.y_mod_p, hroots.y_mod_q]
  · simp [cast_sub_eq_neg hroots.y_lt.le, hroots.y_mod_p, hroots.y_mod_q]

/-- R163 and R165: for distinct primes p, q ≡ 3 (mod 4) and c a square modulo n, every candidate is a root of c modulo
n. -/
theorem crtCandidates_sq_modEq {p q c m v : Nat} (hp : p.Prime) (hq : q.Prime) (hp4 : p % 4 = 3) (hq4 : q % 4 = 3)
    (hne : p ≠ q) (hc : c ≡ m ^ 2 [MOD p * q]) (hv : v ∈ crtCandidates (egcd p q) c p q) : v ^ 2 ≡ c [MOD p * q] := by
  have hpq : Nat.Coprime p q := (Nat.coprime_primes hp hq).2 hne
  obtain ⟨hvp, hvq⟩ := crtCandidates_sq hp.pos hq.pos hpq hv
  have hcast : ∀ {r}, r ∣ p * q → (c : ZMod r) = m ^ 2 := fun hr => by
    exact_mod_cast (ZMod.natCast_eq_natCast_iff _ _ _).2 (hc.of_dvd hr)
  rw [← Nat.modEq_and_modEq_iff_modEq_mul hpq, ← ZMod.natCast_eq_natCast_iff, ← ZMod.natCast_eq_natCast_iff]
  push_cast
  exact ⟨hvp.trans (sq_pow_quarter hp hp4 (hcast (dvd_mul_right p q))),
    hvq.trans (sq_pow_quarter hq hq4 (hcast (dvd_mul_left q p)))⟩

/-! ### The group that CRTSQRT writes (R160, R165) -/

theorem groupWrites_fst (rd : RegIdx) (vs : List Nat) :
    (groupWrites rd vs).map Prod.fst = (List.range vs.length).map (member rd) := by
  rw [groupWrites, List.map_map, List.range_eq_range', ← List.zipIdx_map_snd 0 vs, List.map_map]
  rfl

theorem mem_groupWrites {rd j : RegIdx} {v : Nat} {vs : List Nat} :
    (j, v) ∈ groupWrites rd vs ↔ ∃ k, vs[k]? = some v ∧ member rd k = j := by
  simp [groupWrites, List.mk_mem_zipIdx_iff_getElem?]

/-- The values of the four registers of the group that starts at `r` (R82). -/
def State.group (s : State) (r : RegIdx) : List Nat := (List.range 4).map fun k => s.reg (member r k)

theorem mem_group {s : State} {r : RegIdx} {v : Nat} : v ∈ s.group r ↔ ∃ k, k < 4 ∧ s.reg (member r k) = v := by
  simp only [State.group, List.mem_map, List.mem_range]

theorem group_eq_iff {s : State} {r : RegIdx} {v₀ v₁ v₂ v₃ : Nat} :
    s.group r = [v₀, v₁, v₂, v₃] ↔ s.reg (member r 0) = v₀ ∧ s.reg (member r 1) = v₁ ∧ s.reg (member r 2) = v₂ ∧
      s.reg (member r 3) = v₃ := by
  simp [State.group, List.range, List.range.loop]

/-- A group holds the four values that are written to it. -/
theorem group_eq_of_writes {s : State} {rd : RegIdx} {vs : List Nat} (hlen : vs.length = 4)
    (h : ∀ w ∈ groupWrites rd vs, s.reg w.1 = w.2) : s.group rd = vs := by
  refine List.ext_getElem (by simp [State.group, hlen]) fun k _ hk => ?_
  have hreg := h (member rd k, vs[k]) (mem_groupWrites.2 ⟨k, List.getElem?_eq_getElem hk, rfl⟩)
  simpa [State.group] using hreg

/-- CRTSQRT on a key that passes completes with success and leaves the candidates in its group. -/
theorem exec_crtsqrt_of_keyPasses {s : State} {b : Busy} {rd rp rq : RegIdx} (rc : RegIdx) (hb : s.phase = .busy b)
    (hrd : rd.val ≤ 12) (hkey : KeyPasses s.cfg.nbits (b.src rp) (b.src rq)) :
    ∃ t, exec (.crtsqrt rd rc rp rq) s = .next t ∧ Succeeded s t false (dests (.crtsqrt rd rc rp rq)) ∧
      t.group rd = crtCandidates (egcd (b.src rp) (b.src rq)) (b.src rc) (b.src rp) (b.src rq) := by
  have hbody := (bodyOf_crtsqrt hrd rc rp rq s.cfg b).trans (crtsqrtBody_of_keyPasses rd (b.src rc) hkey)
  obtain ⟨t, hx, hsucc, hregs⟩ := exec_succeeded_regs hb hbody
    (by rw [groupWrites_fst]; exact nodup_members rd (m := 4) (by decide))
  refine ⟨t, hx, hsucc, group_eq_of_writes rfl fun w hw => (hregs w hw).trans (Nat.mod_eq_of_lt ?_)⟩
  obtain ⟨k, hk, -⟩ := mem_groupWrites.1 hw
  have hp := hkey.p_mod_four
  have hq := hkey.q_mod_four
  exact (crtCandidates_le (by omega) (by omega) hkey.coprime (List.mem_of_getElem? hk)).trans_lt hkey.lt

end Sys2Proof.Machine
end

section
/-! PROOFS. The statements about CRTSQRT (44_crt_sqrt.md). -/

namespace Sys2Proof.Machine

/-- Settles O33: the group holds the candidates, and the residues of x and y are those of `crtCandidates_eq`. -/
theorem crtSqrtWritesFourCandidates : Obligations.CrtSqrtWritesFourCandidates := by
  intro s b rd rc rp rq hb hrd hp hq hne hlt hgcd
  obtain ⟨t, hx, hsucc, hgroup⟩ := exec_crtsqrt_of_keyPasses rc hb hrd ⟨hp, hq, hne, hlt, hgcd⟩
  have hp0 : 0 < b.src rp := by omega
  have hq0 : 0 < b.src rq := by omega
  obtain ⟨x, y, heq, hroots⟩ := crtCandidates_eq hp0 hq0 hgcd (b.src rc)
  obtain ⟨h₀, h₁, h₂, h₃⟩ := group_eq_iff.1 (hgroup.trans heq)
  refine ⟨t, x, y, hx, hsucc, h₀, h₁, h₂, h₃, hroots.x_lt, ?_, ?_, hroots.y_lt, ?_, ?_⟩
  · exact (ZMod.natCast_eq_natCast_iff _ _ _).1 (by rw [hroots.x_mod_p, Nat.cast_pow])
  · exact (ZMod.natCast_eq_natCast_iff _ _ _).1 (by rw [hroots.x_mod_q, Nat.cast_pow])
  · refine Nat.mod_eq_zero_of_dvd ((ZMod.natCast_eq_zero_iff _ _).1 ?_)
    rw [Nat.cast_add, Nat.cast_pow, hroots.y_mod_p, neg_add_cancel]
  · exact (ZMod.natCast_eq_natCast_iff _ _ _).1 (by rw [hroots.y_mod_q, Nat.cast_pow])

/-- Settles O34: one equation of the body for each check. -/
theorem crtSqrtChecksTheKeyInOrder : Obligations.CrtSqrtChecksTheKeyInOrder := by
  intro s b rd rc rp rq hb hrd
  have hbody := bodyOf_crtsqrt hrd rc rp rq s.cfg b
  refine ⟨fun h => ?_, fun hp hq heq => ?_, fun hp hq hne hle => ?_, fun hp hq hne hlt hgcd => ?_,
    fun hp hq hne hlt hgcd => ?_⟩
  · exact exec_failed hb (hbody.trans (crtsqrtBody_of_not_three_mod_four rd _ h)) nofun
  · exact exec_failed hb (hbody.trans (crtsqrtBody_of_eq rd _ hp hq heq)) nofun
  · exact exec_failed hb (hbody.trans (crtsqrtBody_of_range rd _ hp hq hne hle)) nofun
  · exact exec_failed hb (hbody.trans (crtsqrtBody_of_not_coprime rd _ hp hq hne hlt hgcd)) nofun
  · obtain ⟨t, hx, hsucc, -⟩ := exec_crtsqrt_of_keyPasses rc hb hrd ⟨hp, hq, hne, hlt, hgcd⟩
    exact ⟨t, hx, hsucc⟩

/-- Settles O35: each register of the group is a candidate, and each candidate a root. -/
theorem crtSqrtCandidatesAreSquareRoots : Obligations.CrtSqrtCandidatesAreSquareRoots := by
  intro s b rd rc rp rq m hb hrd hp hq hp4 hq4 hne hlt hc
  have hgcd : Nat.Coprime (b.src rp) (b.src rq) := (Nat.coprime_primes hp hq).2 hne
  obtain ⟨t, hx, -, hgroup⟩ := exec_crtsqrt_of_keyPasses rc hb hrd ⟨hp4, hq4, hne, hlt, hgcd⟩
  refine ⟨t, hx, fun j hj => crtCandidates_sq_modEq hp hq hp4 hq4 hne hc ?_⟩
  rw [← hgroup]
  exact mem_group.2 ⟨j, hj, rfl⟩

end Sys2Proof.Machine
end

section
/-! SUPPORT. TAGSEL by its configuration check and its scan (R161, R169), and a square's roots among the candidates of
CRTSQRT (R170). -/

namespace Sys2Proof.Machine

/-! ### The configuration and the scan (R44, R45, R161) -/

theorem tagConfigOk_iff (nbits w h : Nat) :
    tagConfigOk nbits w h = true ↔ 1 ≤ w ∧ w ≤ 64 ∧ w < nbits ∧ h < 2 ^ w := by
  simp [tagConfigOk, and_assoc]

/-- The scan stops at the first candidate that carries the tag. -/
theorem tagScan_of_first (rd : RegIdx) {w h : Nat} {cs : List Nat} {j : Nat} (hj : j < cs.length)
    (htag : cs[j] % 2 ^ w = h) (hbefore : ∀ k (hk : k < j), cs[k] % 2 ^ w ≠ h) :
    tagScan rd w h cs = .ret true [(rd, cs[j] / 2 ^ w)] := by
  induction cs generalizing j with
  | nil => exact absurd hj (Nat.not_lt_zero j)
  | cons c cs ih =>
    cases j with
    | zero => exact if_pos htag
    | succ j =>
      have hc : c % 2 ^ w ≠ h := hbefore 0 j.succ_pos
      rw [tagScan, if_neg hc]
      exact ih (Nat.lt_of_succ_lt_succ hj) htag fun k hk => hbefore (k + 1) (Nat.succ_lt_succ hk)

theorem tagScan_of_none (rd : RegIdx) {w h : Nat} {cs : List Nat} (hnone : ∀ c ∈ cs, c % 2 ^ w ≠ h) :
    tagScan rd w h cs = .raise .tagMismatch := by
  induction cs with
  | nil => rfl
  | cons c cs ih =>
    obtain ⟨hc, hcs⟩ := List.forall_mem_cons.1 hnone
    rw [tagScan, if_neg hc, ih hcs]

theorem tagselBody_of_ok {nbits w h : Nat} (hok : tagConfigOk nbits w h = true) (rd : RegIdx) (cs : List Nat) :
    tagselBody nbits rd w h cs = tagScan rd w h cs := if_pos hok

theorem tagselBody_of_not_ok {nbits w h : Nat} (hok : ¬ tagConfigOk nbits w h = true) (rd : RegIdx) (cs : List Nat) :
    tagselBody nbits rd w h cs = .raise .tagConfig := if_neg hok

theorem candidates_eq (b : Busy) (rs : RegIdx) :
    b.candidates rs = (List.range 4).map fun k => b.src (member rs k) := rfl

/-! ### How TAGSEL ends (R161) -/

theorem bodyOf_tagsel {rs : RegIdx} (hrs : rs.val ≤ 12) (rd : RegIdx) (c : Config) (b : Busy) :
    bodyOf (.tagsel rd rs) c b = tagselBody c.nbits rd b.sw.toNat b.sh.toNat (b.candidates rs) := by
  have hfits : groupFits rs 4 = true := (groupFits_iff rs 4).2 (Nat.add_le_add_right hrs 4)
  simp [bodyOf, hfits]

section
variable {s : State} {b : Busy} {rs : RegIdx} (rd : RegIdx) (hb : s.phase = .busy b) (hrs : rs.val ≤ 12)
include hb hrs

theorem exec_tagsel_badConfig (hbad : ¬ tagConfigOk s.cfg.nbits b.sw.toNat b.sh.toNat = true) :
    ∃ t, exec (.tagsel rd rs) s = .next t ∧ Failed s t .tagConfig :=
  exec_failed hb ((bodyOf_tagsel hrs rd s.cfg b).trans (tagselBody_of_not_ok hbad rd _)) nofun

variable (hok : tagConfigOk s.cfg.nbits b.sw.toNat b.sh.toNat = true)
include hok

theorem exec_tagsel_first {j : Nat} (hj : j < 4) (hlt : b.src (member rs j) < 2 ^ s.cfg.nbits)
    (htag : b.src (member rs j) % 2 ^ b.sw.toNat = b.sh.toNat)
    (hbefore : ∀ k, k < j → b.src (member rs k) % 2 ^ b.sw.toNat ≠ b.sh.toNat) :
    ∃ t, exec (.tagsel rd rs) s = .next t ∧ Succeeded s t true [rd] ∧
      t.reg rd = b.src (member rs j) / 2 ^ b.sw.toNat := by
  have hbody : bodyOf (.tagsel rd rs) s.cfg b = .ret true [(rd, b.src (member rs j) / 2 ^ b.sw.toNat)] := by
    rw [bodyOf_tagsel hrs, tagselBody_of_ok hok, candidates_eq,
      tagScan_of_first rd (j := j) (by simpa using hj) (by simpa using htag) (by simpa using hbefore)]
    simp
  obtain ⟨t, hx, hsucc, hreg⟩ := exec_succeeded_regs hb hbody (List.nodup_singleton rd)
  exact ⟨t, hx, hsucc,
    (hreg _ List.mem_cons_self).trans (Nat.mod_eq_of_lt ((Nat.div_le_self _ _).trans_lt hlt))⟩

theorem exec_tagsel_mismatch (hnone : ∀ k, k < 4 → b.src (member rs k) % 2 ^ b.sw.toNat ≠ b.sh.toNat) :
    ∃ t, exec (.tagsel rd rs) s = .next t ∧ Failed s t .tagMismatch := by
  have hscan : tagScan rd b.sw.toNat b.sh.toNat (b.candidates rs) = .raise .tagMismatch :=
    tagScan_of_none rd (by simpa [candidates_eq] using hnone)
  exact exec_failed hb ((bodyOf_tagsel hrs rd s.cfg b).trans ((tagselBody_of_ok hok rd _).trans hscan)) nofun

end

/-- R170's condition on the order of the scan: if every entry with a property stands at or after one equal to `m`, then
no entry before the first `m` has it. -/
theorem exists_first_of_order {f : Nat → Nat} {P : Nat → Prop} {m n : Nat} (hm : ∃ k, k < n ∧ f k = m)
    (horder : ∀ k, k < n → P (f k) → ∃ k', k' ≤ k ∧ f k' = m) :
    ∃ j, j < n ∧ f j = m ∧ ∀ k, k < j → ¬ P (f k) := by
  obtain ⟨hlt, heq⟩ := Nat.find_spec hm
  refine ⟨Nat.find hm, hlt, heq, fun k hk hP => ?_⟩
  obtain ⟨k', hk', hk'm⟩ := horder k (hk.trans hlt) hP
  exact Nat.find_min hm (hk'.trans_lt hk) ⟨(hk'.trans_lt hk).trans hlt, hk'm⟩

/-! ### The roots of a square (R164, R170) -/

section
variable {p q : Nat} (hpq : Nat.Coprime p q)
include hpq

theorem eq_of_cast_eq {u v : Nat} (hu : u < p * q) (hv : v < p * q) (hp : (u : ZMod p) = v) (hq : (u : ZMod q) = v) :
    u = v :=
  ((Nat.modEq_and_modEq_iff_modEq_mul hpq).1
    ⟨(ZMod.natCast_eq_natCast_iff _ _ _).1 hp, (ZMod.natCast_eq_natCast_iff _ _ _).1 hq⟩).eq_of_lt_of_lt hu hv

/-- Opposite residues add up to n, but for 0 with 0. -/
theorem eq_or_eq_sub_of_cast_eq_neg {u v : Nat} (hu : u < p * q) (hv : v < p * q) (hp : (u : ZMod p) = -v)
    (hq : (u : ZMod q) = -v) : u = v ∨ u = p * q - v := by
  have hsum : ∀ {r : Nat}, (u : ZMod r) = -v → r ∣ u + v := fun h => by
    rw [← ZMod.natCast_eq_zero_iff, Nat.cast_add, h, neg_add_cancel]
  obtain ⟨k, hk⟩ := hpq.mul_dvd_of_dvd_of_dvd (hsum hp) (hsum hq)
  have hk2 : k < 2 := lt_of_mul_lt_mul_left (by omega : p * q * k < p * q * 2) (Nat.zero_le _)
  interval_cases k <;> omega

end

/-- R170: every root of c below n is a candidate, since its residues are the roots of c up to their signs. -/
theorem mem_crtCandidates_of_sq {p q c u : Nat} (hp : p.Prime) (hq : q.Prime) (hp4 : p % 4 = 3) (hq4 : q % 4 = 3)
    (hne : p ≠ q) (hu : u < p * q) (hc : c ≡ u ^ 2 [MOD p * q]) : u ∈ crtCandidates (egcd p q) c p q := by
  have hpq : Nat.Coprime p q := (Nat.coprime_primes hp hq).2 hne
  obtain ⟨x, y, heq, hroots⟩ := crtCandidates_eq hp.pos hq.pos hpq c
  have hroot : ∀ {r : Nat}, r.Prime → r % 4 = 3 → r ∣ p * q →
      (u : ZMod r) = c ^ ((r + 1) / 4) ∨ (u : ZMod r) = -c ^ ((r + 1) / 4) := fun {r} hr hr4 hdvd => by
    have : Fact r.Prime := ⟨hr⟩
    have hcast : (c : ZMod r) = u ^ 2 := by
      exact_mod_cast (ZMod.natCast_eq_natCast_iff _ _ _).2 (hc.of_dvd hdvd)
    exact sq_eq_sq_iff_eq_or_eq_neg.1 (hcast.symm.trans (sq_pow_quarter hr hr4 hcast).symm)
  rw [heq]
  rcases hroot hp hp4 (dvd_mul_right p q) with hup | hup <;> rcases hroot hq hq4 (dvd_mul_left q p) with huq | huq
  · have := eq_of_cast_eq hpq hu hroots.x_lt (hup.trans hroots.x_mod_p.symm) (huq.trans hroots.x_mod_q.symm)
    simp [this]
  · have := eq_or_eq_sub_of_cast_eq_neg hpq hu hroots.y_lt (by rw [hup, hroots.y_mod_p, neg_neg])
      (by rw [huq, hroots.y_mod_q])
    rcases this with h | h <;> simp [h]
  · have := eq_of_cast_eq hpq hu hroots.y_lt (hup.trans hroots.y_mod_p.symm) (huq.trans hroots.y_mod_q.symm)
    simp [this]
  · have := eq_or_eq_sub_of_cast_eq_neg hpq hu hroots.x_lt (by rw [hup, hroots.x_mod_p]) (by rw [huq, hroots.x_mod_q])
    rcases this with h | h <;> simp [h]

end Sys2Proof.Machine
end

section
/-! PROOFS. The statements about TAGSEL and the round trip (44_crt_sqrt.md). -/

namespace Sys2Proof.Machine

/-- Settles O36. -/
theorem tagselRecoversFirstTaggedCandidate : Obligations.TagselRecoversFirstTaggedCandidate := by
  intro s b rd rs j hb hrange hrs h1 h64 hw hh hj htag hbefore
  exact exec_tagsel_first rd hb hrs ((tagConfigOk_iff _ _ _).2 ⟨h1, h64, hw, hh⟩) hj (hrange _) htag hbefore

/-- Settles O37. -/
theorem tagselErrors : Obligations.TagselErrors := by
  intro s b rd rs hb hrs
  refine ⟨fun hbad => ?_, fun h1 h64 hw hh hnone => ?_⟩
  · exact exec_tagsel_badConfig rd hb hrs (by rw [tagConfigOk_iff]; omega)
  · exact exec_tagsel_mismatch rd hb hrs ((tagConfigOk_iff _ _ _).2 ⟨h1, h64, hw, hh⟩) hnone

/-- Settles O38: M is a root of c, so a candidate, and the first candidate equal to M is the first that carries the
tag. -/
theorem decryptionRecoversThePlaintext : Obligations.DecryptionRecoversThePlaintext := by
  intro s₁ s₂ t₁ b₁ b₂ rt rc rp rq rd m hb₁ hb₂ hcfg hrt hp hq hp4 hq4 hne hlt h1 h64 hw hh hM hc hx hsrc horder
  have hM_tag : (m * 2 ^ b₂.sw.toNat + b₂.sh.toNat) % 2 ^ b₂.sw.toNat = b₂.sh.toNat := by
    rw [Nat.mul_add_mod', Nat.mod_eq_of_lt hh]
  have hM_div : (m * 2 ^ b₂.sw.toNat + b₂.sh.toNat) / 2 ^ b₂.sw.toNat = m := by
    rw [Nat.mul_comm, Nat.mul_add_div (Nat.two_pow_pos _), Nat.div_eq_of_lt hh, Nat.add_zero]
  have hc' : b₁.src rc ≡ (m * 2 ^ b₂.sw.toNat + b₂.sh.toNat) ^ 2 [MOD b₁.src rp * b₁.src rq] :=
    hc ▸ Nat.mod_modEq _ _
  generalize m * 2 ^ b₂.sw.toNat + b₂.sh.toNat = M at *
  obtain ⟨t, hx', -, hgroup⟩ :=
    exec_crtsqrt_of_keyPasses rc hb₁ hrt ⟨hp4, hq4, hne, hlt, (Nat.coprime_primes hp hq).2 hne⟩
  cases hx.symm.trans hx'
  have hmem := mem_group.1 (hgroup ▸ mem_crtCandidates_of_sq hp hq hp4 hq4 hne hM hc')
  obtain ⟨j, hj, hjM, hbefore⟩ := exists_first_of_order (P := fun v => v % 2 ^ b₂.sw.toNat = b₂.sh.toNat) hmem horder
  have hsrcM : b₂.src (member rt j) = M := (hsrc j hj).trans hjM
  obtain ⟨t₂, hx₂, hsucc, hreg⟩ := exec_tagsel_first rd hb₂ hrt ((tagConfigOk_iff _ _ _).2 ⟨h1, h64, hcfg ▸ hw, hh⟩) hj
    (by rw [hsrcM, hcfg]; exact hM.trans hlt) (hsrcM ▸ hM_tag)
    fun k hk => hsrc k (hk.trans hj) ▸ hbefore k hk
  exact ⟨t₂, hx₂, hsucc, hreg.trans (hsrcM ▸ hM_div)⟩

end Sys2Proof.Machine
end

section
/-! SUPPORT. A host that issues a command and waits for it, and the two ways `DECRYPT` goes on after its test of ERRCODE
(R94, R167; log 15). -/

namespace Sys2Proof.Machine

/-- A command other than MRT never asks the RNG. -/
theorem bodyOf_ne_draw {i : Instr} (hmrt : ∀ n k, i ≠ .mrt n k) (c : Config) (b : Busy) (r : RngReq) :
    bodyOf i c b ≠ .draw r := by
  rcases bodyOf_cases i c b with ⟨e, h, -⟩ | ⟨f, ws, h, -⟩ | ⟨n, k, r', hi, -⟩
  · exact h ▸ nofun
  · exact h ▸ nofun
  · exact absurd hi (hmrt n k)

/-- The turns in which a host issues a command and waits for it: the `CMD` write, reads while the command executes, the
engine's turn, and the read that ends the `WAIT`. -/
def commandTurns (polls : Nat) : List Turn :=
  Turn.host :: (List.replicate polls Turn.host ++ [Turn.event .engine, Turn.host])

/-- The turns of a host that runs `DECRYPT`: its two commands, and the test of ERRCODE between them. -/
theorem decryptTurns_eq (polls₁ polls₂ : Nat) :
    [Turn.host] ++ List.replicate polls₁ Turn.host ++ [Turn.event .engine, Turn.host, Turn.host] ++ [Turn.host] ++
        List.replicate polls₂ Turn.host ++ [Turn.event .engine, Turn.host] =
      commandTurns polls₁ ++ Turn.host :: commandTurns polls₂ := by
  simp [commandTurns]

/-- `run_command` told by `exec`: the host issues a command other than MRT on an idle block and waits for it. -/
theorem run_command_of_exec {s t : State} {i : Instr} {rest : List HostOp} (ts : List Turn) (n : Nat) (read : Word)
    (hr : s.rst = false) (hp : s.phase = .idle) (hwf : i.wellFormed = true) (hmrt : ∀ n k, i ≠ .mrt n k)
    (hx : exec i (s.accept (encode i)) = .next t) :
    ∃ o, Platform.run (commandTurns n ++ ts)
        { block := s, program := .access (issueReq i) :: .waitIdle :: rest, lastRead := read } =
      Platform.run ts { block := { t with outputs := o }, program := rest, lastRead := t.statusWord } := by
  obtain ⟨o, t', rfl, hrun⟩ := run_command (rest := rest)
    (p := { block := s, program := .access (issueReq i) :: .waitIdle :: rest, lastRead := read }) ts n hr hp rfl
    (decodeOfEncode i hwf) (bodyOf_ne_draw hmrt _ _)
  rw [exec_busy (accept_phase s _)] at hx
  cases hx
  rw [commandTurns, List.cons_append, List.append_assoc]
  exact ⟨o, hrun⟩

/-- A host with nothing left to do, on an idle block. -/
theorem run_command_done {p : Platform} (n : Nat) (hp : p.block.phase = .idle) (h : p.program = []) :
    Platform.run (commandTurns n) p = .next p := by
  rw [commandTurns, run_cons (turn_host_done h), run_done _ _ _ h, run_cons (turn_engine_idle hp),
    run_cons (turn_host_done h)]
  rfl

/-- `DECRYPT` has one expansion, for a group at `rt` that fits (R94). -/
theorem decrypt_eq_some_iff {rd rc rp rq rt : RegIdx} {prog : List HostOp} :
    decrypt rd rc rp rq rt = some prog ↔ groupFits rt 4 = true ∧
      [.access (issueReq (.crtsqrt rt rc rp rq)), .waitIdle, .stopOnError 2, .access (issueReq (.tagsel rd rt)),
        .waitIdle] = prog := by
  rw [decrypt]
  cases groupFits rt 4 <;> simp

/-- A command accepted on registers in range leaves registers in range (R20). -/
theorem reg_lt_of_exec_accept {s t : State} {i : Instr} (hr : s.rst = false) (hlt : ∀ j, s.reg j < 2 ^ s.cfg.nbits)
    (hwf : i.wellFormed = true) (hx : exec i (s.accept (encode i)) = .next t) (j : RegIdx) :
    t.reg j < 2 ^ t.cfg.nbits :=
  (inv_exec (inv_accept hr hlt _) hr (accept_phase s _) (decodeOfEncode i hwf) hx).regs_lt j

/-- How a TAGSEL with a legal tag configuration ends, told from its next state. -/
theorem tagsel_ends {s t : State} {b : Busy} {rd rs : RegIdx} (hb : s.phase = .busy b) (hrs : rs.val ≤ 12)
    (hrange : b.InRange s.cfg) (hok : tagConfigOk s.cfg.nbits b.sw.toNat b.sh.toNat = true)
    (hx : exec (.tagsel rd rs) s = .next t) :
    (∀ j, j < 4 → b.src (member rs j) % 2 ^ b.sw.toNat = b.sh.toNat →
      (∀ k, k < j → b.src (member rs k) % 2 ^ b.sw.toNat ≠ b.sh.toNat) →
      t.errcode = .ok ∧ t.rflag = true ∧ t.reg rd = b.src (member rs j) / 2 ^ b.sw.toNat) ∧
    ((∀ k, k < 4 → b.src (member rs k) % 2 ^ b.sw.toNat ≠ b.sh.toNat) →
      t.errcode = .tagMismatch ∧ t.rflag = false ∧ t.reg rd = s.reg rd) := by
  refine ⟨fun j hj htag hbefore => ?_, fun hnone => ?_⟩
  · obtain ⟨t', hx', hsucc, hreg⟩ := exec_tagsel_first rd hb hrs hok hj (hrange _) htag hbefore
    cases hx.symm.trans hx'
    exact ⟨hsucc.errcode, hsucc.rflag, hreg⟩
  · obtain ⟨t', hx', hfail⟩ := exec_tagsel_mismatch rd hb hrs hok hnone
    cases hx.symm.trans hx'
    exact ⟨hfail.errcode, hfail.rflag, hfail.regs rd⟩

/-- The program that is left after the test of ERRCODE. -/
theorem turn_host_test_status {s t : State} {n : Nat} {rest : List HostOp} :
    Platform.turn { block := s, program := .stopOnError n :: rest, lastRead := t.statusWord } .host =
      .next { block := s, program := if t.errcode = .ok then rest else rest.drop n, lastRead := t.statusWord } := by
  rw [turn_host_test rfl]
  simp only [statusWord_errcode, code_eq_zero]

section
variable {s t : State} {rd rc rp rq rt : RegIdx} {prog : List HostOp} (polls₁ polls₂ : Nat) (read : Word)
  (hr : s.rst = false) (hp : s.phase = .idle) (hprog : decrypt rd rc rp rq rt = some prog)
  (hx : exec (.crtsqrt rt rc rp rq) (s.accept (encode (.crtsqrt rt rc rp rq))) = .next t)
include hr hp hprog hx

/-- `DECRYPT` up to its test of ERRCODE. -/
theorem run_decrypt_first :
    ∃ o, Platform.run (commandTurns polls₁ ++ Turn.host :: commandTurns polls₂)
        { block := s, program := prog, lastRead := read } =
      Platform.run (commandTurns polls₂)
        { block := { t with outputs := o }
          program := if t.errcode = .ok then [.access (issueReq (.tagsel rd rt)), .waitIdle] else []
          lastRead := t.statusWord } := by
  obtain ⟨hfits, rfl⟩ := decrypt_eq_some_iff.1 hprog
  obtain ⟨o, hrun⟩ := run_command_of_exec (i := .crtsqrt rt rc rp rq) (Turn.host :: commandTurns polls₂) polls₁ read
    hr hp hfits nofun hx
  exact ⟨o, hrun.trans (run_cons turn_host_test_status _)⟩

/-- With an error the host does nothing more. -/
theorem run_decrypt_of_error (hidle : t.phase = .idle) (herr : t.errcode ≠ .ok) :
    ∃ o, Platform.run (commandTurns polls₁ ++ Turn.host :: commandTurns polls₂)
        { block := s, program := prog, lastRead := read } =
      .next { block := { t with outputs := o }, program := [], lastRead := t.statusWord } := by
  obtain ⟨o, hrun⟩ := run_decrypt_first polls₁ polls₂ read hr hp hprog hx
  rw [if_neg herr] at hrun
  exact ⟨o, hrun.trans (run_command_done polls₂ hidle rfl)⟩

/-- Without an error the host issues TAGSEL on what CRTSQRT left and waits for it. -/
theorem run_decrypt_of_ok (hidle : t.phase = .idle) (hok : t.errcode = .ok) :
    ∃ o, ∀ u, exec (.tagsel rd rt) (State.accept { t with outputs := o } (encode (.tagsel rd rt))) = .next u →
      ∃ o', Platform.run (commandTurns polls₁ ++ Turn.host :: commandTurns polls₂)
          { block := s, program := prog, lastRead := read } =
        .next { block := { u with outputs := o' }, program := [], lastRead := u.statusWord } := by
  obtain ⟨hfits, -⟩ := decrypt_eq_some_iff.1 hprog
  obtain ⟨-, hrst, -⟩ := exec_rest hx
  obtain ⟨o, hrun⟩ := run_decrypt_first polls₁ polls₂ read hr hp hprog hx
  refine ⟨o, fun u hu => ?_⟩
  obtain ⟨o', hrun'⟩ := run_command_of_exec (s := { t with outputs := o }) (i := .tagsel rd rt) (rest := []) [] polls₂
    t.statusWord (hrst.trans hr) hidle hfits nofun hu
  rw [List.append_nil] at hrun'
  exact ⟨o', by rw [hrun, if_pos hok, hrun']; rfl⟩

end

end Sys2Proof.Machine
end

section
/-! PROOFS. The statement about DECRYPT (44_crt_sqrt.md). -/

namespace Sys2Proof.Machine

/-- Settles O60: CRTSQRT completes; an error ends the program with its state, and otherwise TAGSEL runs on the registers
and the tag that CRTSQRT left. -/
theorem decryptProgramWaitsAndStopsOnErrors : Obligations.DecryptProgramWaitsAndStopsOnErrors := by
  refine ⟨fun p rest hr hprog => turn_host_wait hr hprog, ?_⟩
  intro s t rd rc rp rq rt prog read polls₁ polls₂ hr hp hlt hprog hx
  rw [decryptTurns_eq]
  obtain ⟨hcfg, -, -, -, -, -, hcmd, htagw, hlo, hhi, -⟩ := exec_rest hx
  obtain ⟨hfits, -⟩ := decrypt_eq_some_iff.1 hprog
  have hrt : rt.val ≤ 12 := Nat.le_of_add_le_add_right ((groupFits_iff rt 4).1 hfits)
  obtain ⟨t', hx', hend⟩ := commandsButMrtCompleteInOneTurn _ _ (.crtsqrt rt rc rp rq) (accept_phase s _) nofun
  cases hx.symm.trans hx'
  rcases hend with ⟨hfail, herr⟩ | hsucc
  · obtain ⟨o, hrun⟩ := run_decrypt_of_error polls₁ polls₂ read hr hp hprog hx hfail.idle herr
    exact ⟨_, hrun, rfl, hfail.idle, fun _ => ⟨rfl, hfail.rflag, hcmd, hfail.regs⟩, fun hok => absurd hok herr⟩
  · obtain ⟨o, hrun⟩ := run_decrypt_of_ok polls₁ polls₂ read hr hp hprog hx hsucc.idle hsucc.errcode
    obtain ⟨u, hu, hend⟩ := commandsButMrtCompleteInOneTurn (State.accept { t with outputs := o } _) _ (.tagsel rd rt)
      rfl nofun
    obtain ⟨o', hrun'⟩ := hrun u hu
    have hidle : u.phase = .idle := hend.elim (fun h => h.1.idle) (fun h => h.idle)
    obtain ⟨-, -, -, -, -, -, hcmd', -⟩ := exec_rest hu
    refine ⟨_, hrun', rfl, hidle, fun herr => absurd hsucc.errcode herr, fun _ => ⟨hcmd', fun j hj => ?_, ?_⟩⟩
    · obtain ⟨hrd, hgroup⟩ := not_or.1 (mt List.mem_cons.2 hj)
      have hfirst := exec_reg_eq hx hgroup
      exact (exec_reg_eq hu (mt List.mem_singleton.1 hrd)).trans hfirst
    · have htagh : t.tagh = s.tagh := by rw [State.tagh, hlo, hhi]; rfl
      rw [accept_cfg] at hcfg
      rw [accept_tagw] at htagw
      rw [← htagh, ← htagw, ← hcfg]
      intro h1 h64 hw hh
      have hrange := reg_lt_of_exec_accept (i := .crtsqrt rt rc rp rq) hr hlt hfits hx
      have hok := (tagConfigOk_iff _ _ _).2 ⟨h1, h64, hw, hh⟩
      have hends := tagsel_ends (accept_phase { t with outputs := o } _) hrt hrange hok hu
      exact hends

end Sys2Proof.Machine
end

section
/-! SUPPORT. What sets the engine busy, and what a completion does to DONE (R25, R43, R104). -/

namespace Sys2Proof.Machine

@[simp] theorem limbWrite_phase (s : State) (off : Offset) (v : Word) : (s.limbWrite off v).phase = s.phase := by
  unfold State.limbWrite
  split
  · rfl
  · split <;> rfl

theorem writeTag_phase {s stored : State} (h : stored.phase = s.phase) : (s.writeTag stored).phase = s.phase := by
  unfold State.writeTag
  split
  · rfl
  · exact h

/-- Of all bus writes, only one to CMD changes the engine phase. -/
theorem storeWord_phase_of_ne_cmd (s : State) {off : Offset} (hoff : off ≠ 0x010) (v : Word) :
    (s.storeWord off v).phase = s.phase := by
  rcases storeWord_cases s off v with ⟨-, h⟩ | ⟨-, h⟩ | ⟨-, h⟩ | ⟨hcmd, h⟩ | ⟨-, h⟩ | ⟨-, h⟩ | ⟨-, h⟩ |
    ⟨-, -, -, -, -, -, -, h⟩ <;> rw [h]
  · exact limbWrite_phase ..
  · rfl
  · rfl
  · exact absurd hcmd hoff
  · exact writeTag_phase rfl
  · exact writeTag_phase rfl
  · exact writeTag_phase rfl

theorem driveRst_phase_of_idle {s : State} (h : s.phase = .idle) (l : Bool) : (s.driveRst l).phase = .idle := by
  unfold State.driveRst
  split
  · rfl
  · exact h

/-- A turn of the engine that leaves it idle has set DONE: an MRT that asks for a base or waits for one is still
busy. -/
theorem exec_done_of_idle {s t : State} {i : Instr} (h : exec i s = .next t) (hidle : t.phase = .idle) :
    t.done = true := by
  rcases exec_next_cases h with ⟨e, -, hf⟩ | ⟨f, hs⟩ | ⟨n, k, b, r, -, hb, -, ⟨-, rfl⟩ | ⟨-, rfl⟩⟩
  · exact hf.done
  · exact hs.done
  · exact nomatch hb.symm.trans hidle
  · exact nomatch hidle

/-- A completion as a step, with or without an error, a decode error included: DONE is set and IE kept. -/
theorem step_completion {s t : State} {b : Busy} (hr : s.rst = false) (hb : s.phase = .busy b)
    (he : s.nextEvent = .engine) (h : step s = .next t) (hidle : t.phase = .idle) : t.done = true ∧ t.ie = s.ie := by
  cases hd : decode b.word with
  | command i =>
    have hx : exec i s.pop = .next t := (step_of_command hr hb he hd).symm.trans h
    obtain ⟨-, -, hie, -⟩ := exec_rest hx
    exact ⟨exec_done_of_idle hx hidle, hie⟩
  | illegalOpcode =>
    cases (step_of_illegalOpcode hr hb he hd).symm.trans h
    exact ⟨rfl, rfl⟩
  | illegalField =>
    cases (step_of_illegalField hr hb he hd).symm.trans h
    exact ⟨rfl, rfl⟩

end Sys2Proof.Machine
end

section
/-! PROOFS. The statements about exceptions (60_exceptions.md). -/

namespace Sys2Proof.Machine

/-- Settles O10: of the cases of `step_cases`, an idle block meets only reset, a port output, nothing and a bus write;
and of the bus writes only one to CMD changes the phase. -/
theorem idleBlockHoldsItsState : Obligations.IdleBlockHoldsItsState := by
  intro s t hidle h
  rcases step_cases h with ⟨l, he, rfl⟩ | ⟨o, rfl⟩ | rfl | ⟨off, v, -, he, -, rfl⟩ | ⟨b, r, v, -, -, hb, -⟩ |
    ⟨b, -, -, hb, -⟩
  · exact ⟨fun _ hrst => absurd he (hrst l), fun hwake => absurd (driveRst_phase_of_idle (s := s.pop) hidle l) hwake⟩
  · exact ⟨fun _ _ => rfl, fun hwake => absurd hidle hwake⟩
  · exact ⟨fun _ _ => rfl, fun hwake => absurd hidle hwake⟩
  · refine ⟨fun hwrite _ => absurd he (hwrite off .word v), fun hwake => ?_⟩
    have hcmd : off = 0x010 := by
      by_contra hoff
      exact hwake ((storeWord_phase_of_ne_cmd s.pop hoff v).trans hidle)
    exact ⟨v, hcmd ▸ he⟩
  · exact nomatch hb.symm.trans hidle
  · exact nomatch hb.symm.trans hidle

/-- Settles O54: each clause by what its event leaves in DONE and IE. -/
theorem irqFollowsDoneAndEnable : Obligations.IrqFollowsDoneAndEnable := by
  refine ⟨fun s => rfl, fun s t b hr hb he h hidle => ?completion, fun s v hr he => ?ctrl, fun s v hr he hv => ?status,
    fun s w hr hidle he => ?acceptance, fun s l he hl => ?reset⟩
  case completion =>
    obtain ⟨hdone, hie⟩ := step_completion hr hb he h hidle
    rw [State.irq, hdone, hie, Bool.true_and]
  case ctrl => exact ⟨_, ctrlWriteSetsIeAndLock s v hr he, rfl, rfl⟩
  case status =>
    refine ⟨_, statusWriteClearsWrittenOnes s v hr he, ?_⟩
    rw [State.irq, if_pos hv, Bool.false_and]
  case acceptance =>
    refine ⟨_, step_write hr he rfl, ?_⟩
    rw [storeWord_cmd, writeCmd_idle (s := s.pop) hidle, State.irq, emit_done, accept_done, Bool.false_and]
  case reset =>
    refine ⟨_, step_of_rst he, ?_⟩
    rw [driveRst_of_reset (s := s.pop) hl]
    rfl

end Sys2Proof.Machine
end

section
/-! SUPPORT. The turns while the pin is asserted, and what no event but reset can do to a locked tag or to an executing
command (R35, R40, R41, R200, R203). -/

namespace Sys2Proof.Machine

/-! ### While the pin is asserted (R200) -/

theorem engineTurn_of_rst {s : State} (hr : s.rst = true) (run : Instr → State → Host.Outcome State Fault Refusal) :
    s.engineTurn run = .next s := by
  rw [State.engineTurn, State.engineWork, if_pos hr]

theorem rngTurn_of_rst {s : State} (hr : s.rst = true) (v : Nat) : s.rngTurn v = s := if_pos hr

theorem hostTurn_of_rst {s : State} (hr : s.rst = true) (req : BusReq) : s.hostTurn req = .refused .busDuringReset :=
  if_pos hr

/-- An idle block has no request outstanding, whatever the level of the pin. -/
theorem rngTurn_of_idle {s : State} (h : s.phase = .idle) (v : Nat) : s.rngTurn v = s := by
  cases hr : s.rst with
  | true => exact rngTurn_of_rst hr v
  | false => exact (if_neg (by simp [hr])).trans (rngAnswer_unasked (fun _ hb => nomatch hb.symm.trans h) v)

/-! ### The lock and the tag (R35, R41, R203) -/

/-- From `s` to `t` LOCK and the three tag registers are the same. -/
structure KeepsLockAndTag (s t : State) : Prop where
  lock : t.lock = s.lock
  tagw : t.tagw = s.tagw
  taghLo : t.taghLo = s.taghLo
  taghHi : t.taghHi = s.taghHi

theorem keepsLockAndTag_limbWrite (s : State) (off : Offset) (v : Word) : KeepsLockAndTag s (s.limbWrite off v) := by
  unfold State.limbWrite
  split
  · exact ⟨rfl, rfl, rfl, rfl⟩
  · split <;> exact ⟨rfl, rfl, rfl, rfl⟩

theorem keepsLockAndTag_writeCmd (s : State) (v : Word) : KeepsLockAndTag s (s.writeCmd v) := by
  unfold State.writeCmd
  split <;> exact ⟨rfl, rfl, rfl, rfl⟩

/-- A locked block drops every tag write. -/
theorem keepsLockAndTag_writeTag {s : State} (hlock : s.lock = true) (stored : State) :
    KeepsLockAndTag s (s.writeTag stored) := by
  rw [writeTag_dropped (.inr hlock)]
  exact ⟨rfl, rfl, rfl, rfl⟩

/-- A CTRL write sets LOCK and does not clear it. -/
theorem keepsLockAndTag_writeCtrl {s : State} (hlock : s.lock = true) (v : Word) :
    KeepsLockAndTag s (s.writeCtrl v) :=
  ⟨by rw [writeCtrl_lock, hlock, Bool.true_or], rfl, rfl, rfl⟩

/-- No bus write unlocks a locked block or changes its tag. -/
theorem keepsLockAndTag_storeWord {s : State} (hlock : s.lock = true) (off : Offset) (v : Word) :
    KeepsLockAndTag s (s.storeWord off v) := by
  rcases storeWord_cases s off v with ⟨-, h⟩ | ⟨-, h⟩ | ⟨-, h⟩ | ⟨-, h⟩ | ⟨-, h⟩ | ⟨-, h⟩ | ⟨-, h⟩ |
    ⟨-, -, -, -, -, -, -, h⟩ <;> rw [h]
  · exact keepsLockAndTag_limbWrite ..
  · exact keepsLockAndTag_writeCtrl hlock v
  · exact ⟨rfl, rfl, rfl, rfl⟩
  · exact keepsLockAndTag_writeCmd ..
  · exact keepsLockAndTag_writeTag hlock _
  · exact keepsLockAndTag_writeTag hlock _
  · exact keepsLockAndTag_writeTag hlock _
  · exact ⟨rfl, rfl, rfl, rfl⟩

/-- Of the cases of `step_cases`, only reset and a bus write touch LOCK or the tag. -/
theorem keepsLockAndTag_step {s t : State} (h : step s = .next t) (hrst : ∀ l, s.nextEvent ≠ .rst l)
    (hlock : s.lock = true) : KeepsLockAndTag s t := by
  rcases step_cases h with ⟨l, he, -⟩ | ⟨o, rfl⟩ | rfl | ⟨off, v, -, -, -, rfl⟩ | ⟨b, r, v, -, -, -, -, -, -, rfl⟩ |
    ⟨b, -, -, -, ⟨i, -, hx⟩ | ⟨e, -, rfl⟩⟩
  · exact absurd he (hrst l)
  · exact ⟨rfl, rfl, rfl, rfl⟩
  · exact ⟨rfl, rfl, rfl, rfl⟩
  · obtain ⟨hl, hw, hlo, hhi⟩ := keepsLockAndTag_storeWord (s := s.pop) hlock off v
    exact ⟨hl, hw, hlo, hhi⟩
  · exact ⟨rfl, rfl, rfl, rfl⟩
  · obtain ⟨-, -, -, hl, -, -, -, hw, hlo, hhi, -⟩ := exec_rest hx
    exact ⟨hl, hw, hlo, hhi⟩
  · exact ⟨rfl, rfl, rfl, rfl⟩

/-! ### The executing command (R104, R203) -/

/-- The engine is busy on the word and the snapshot of `b`; its RNG traffic may have moved on. -/
def State.StillRuns (t : State) (b : Busy) : Prop :=
  ∃ b', t.phase = .busy b' ∧ b'.word = b.word ∧ b'.snap = b.snap ∧ b'.sw = b.sw ∧ b'.sh = b.sh

theorem stillRuns_of_phase {t : State} {b : Busy} (h : t.phase = .busy b) : t.StillRuns b :=
  ⟨b, h, rfl, rfl, rfl, rfl⟩

/-- While busy a bus write leaves the engine as it is. -/
theorem storeWord_phase_of_busy {s : State} {b : Busy} (hb : s.phase = .busy b) (off : Offset) (v : Word) :
    (s.storeWord off v).phase = .busy b := by
  obtain ⟨ie, lock, done, busyerr, lockerr, h⟩ := storeWord_busy hb off v
  rw [h]
  exact hb

/-- A turn of the engine completes the command, or places its RNG request, or waits for the answer. -/
theorem exec_stillRuns_or_done {s t : State} {b : Busy} {i : Instr} (hb : s.phase = .busy b)
    (h : exec i s = .next t) : t.StillRuns b ∨ t.phase = .idle ∧ t.done = true := by
  rcases exec_next_cases h with ⟨e, -, hf⟩ | ⟨f, hs⟩ | ⟨n, k, b', r, -, hb', -, ⟨-, rfl⟩ | ⟨-, rfl⟩⟩
  · exact .inr ⟨hf.idle, hf.done⟩
  · exact .inr ⟨hs.idle, hs.done⟩
  · exact .inl (stillRuns_of_phase hb)
  · cases hb'.symm.trans hb
    exact .inl ⟨_, rfl, rfl, rfl, rfl, rfl⟩

/-- Of the cases of `step_cases`, only reset ends a command without its completion. -/
theorem step_stillRuns_or_done {s t : State} {b : Busy} (h : step s = .next t) (hrst : ∀ l, s.nextEvent ≠ .rst l)
    (hb : s.phase = .busy b) : t.StillRuns b ∨ t.phase = .idle ∧ t.done = true := by
  rcases step_cases h with ⟨l, he, -⟩ | ⟨o, rfl⟩ | rfl | ⟨off, v, -, -, -, rfl⟩ |
    ⟨b', r, v, -, -, hb', -, -, -, rfl⟩ | ⟨b', -, -, -, ⟨i, -, hx⟩ | ⟨e, -, rfl⟩⟩
  · exact absurd he (hrst l)
  · exact .inl (stillRuns_of_phase hb)
  · exact .inl (stillRuns_of_phase hb)
  · exact .inl (stillRuns_of_phase (storeWord_phase_of_busy (s := s.pop) hb off v))
  · cases hb'.symm.trans hb
    exact .inl ⟨_, rfl, rfl, rfl, rfl, rfl⟩
  · exact exec_stillRuns_or_done (s := s.pop) hb hx
  · exact .inr ⟨rfl, rfl⟩

end Sys2Proof.Machine
end

section
/-! PROOFS. The statements about reset and hazards (70_reset_and_hazards.md). -/

namespace Sys2Proof.Machine

/-- Settles O51: a step that is no reset keeps LOCK and the tag of a locked block, and a command until its completion. -/
theorem onlyResetUnlocksOrAbandons : Obligations.OnlyResetUnlocksOrAbandons := by
  refine fun s t h hrst => ⟨fun hlock => ?_, fun b hb => step_stillRuns_or_done h hrst hb⟩
  obtain ⟨hl, hw, hlo, hhi⟩ := keepsLockAndTag_step h hrst hlock
  exact ⟨hl.trans hlock, hw, hlo, hhi⟩

/-- Settles O56. -/
theorem resetRestoresEveryValue : Obligations.ResetRestoresEveryValue := by
  refine ⟨fun s l he hl => ⟨?_, rfl, rfl⟩, fun s v hidle he => ?_⟩
  · rw [step_of_rst he, driveRst_of_reset (s := s.pop) hl]
    rfl
  · rw [step_of_rng he, rngTurn_of_idle (s := s.pop) hidle]
    rfl

/-- Settles O57: one equation for each agent's turn. -/
theorem nothingTakesEffectDuringReset : Obligations.NothingTakesEffectDuringReset := by
  refine fun s hr => ⟨fun he => ?engine, fun v he => ?answer, fun req he => ?access⟩
  case engine => exact (step_of_engine he).trans (engineTurn_of_rst (s := s.pop) hr exec)
  case answer => exact (step_of_rng he).trans (congrArg _ (rngTurn_of_rst (s := s.pop) hr v))
  case access => exact (step_of_bus he).trans (hostTurn_of_rst (s := s.pop) hr req)

end Sys2Proof.Machine
end
